-- ==== Sys2Proof/Word.lean ====
section
/-! DEFINITION. The widths of the hardware (spec/00_scope.md R5, R7): bytes, 16-bit words, and the opcode's fields. -/

namespace Sys2Proof

/-- A byte of memory, a general register, a timer, an immediate KK (R5 `REG_WIDTH`). -/
abbrev Byte := BitVec 8

/-- A 16-bit value: pc, I, a call-stack slot, an opcode (R5 `ADDR_WIDTH`, R70). -/
abbrev Word := BitVec 16

/-- The 4-bit field X or Y of an opcode, and the register index it names (R10, R71). -/
abbrev Reg := BitVec 4

/-- The 4-bit field N of an opcode, and a key code 0x0..0xF (R71, R5 `NUM_KEYS`). -/
abbrev Nibble := BitVec 4

/-- The 12-bit immediate NNN of an opcode (R71). -/
abbrev Imm12 := BitVec 12

end Sys2Proof
end

