-- ==== Sys2Proof/Config.lean ====
section
/-! DEFINITION. What is fixed for the machine: the sizes of spec/00_scope.md R5 and the one free value, `rnd` (R6). -/

namespace Sys2Proof.Config

/-- `MEM_SIZE`: addresses 0x000..0xFFF (R5). -/
abbrev memSize : Nat := 4096
/-- `FONT_BASE` (R5). -/
abbrev fontBase : Nat := 0x000
/-- `FONT_SIZE`: 16 glyphs of 5 bytes (R5). -/
abbrev fontSize : Nat := 80
/-- `GLYPH_SIZE` (R5). -/
abbrev glyphSize : Nat := 5
/-- `PROGRAM_BASE`: the first byte of the program image (R5). -/
abbrev programBase : Nat := 0x200
/-- `MAX_IMAGE` (R5). -/
abbrev maxImage : Nat := 3584
/-- `STACK_DEPTH` (R5). -/
abbrev stackDepth : Nat := 16
/-- `VIEW_WIDTH` (R5). -/
abbrev viewWidth : Nat := 64
/-- `VIEW_HEIGHT` (R5). -/
abbrev viewHeight : Nat := 32
/-- `FB_SIZE`: framebuffer cells (R5). -/
abbrev fbSize : Nat := 2048

/-- The random source (R33, R123, R180): the k-th byte it gives. A FREE VALUE (log entry 2): it has no body, so no
proof can see any value of it, and a claim holds for every one. A machine that has taken `draws` bytes takes
`rnd draws` next. -/
opaque rnd (k : Nat) : Byte

end Sys2Proof.Config
end

