-- ==== Sys2Proof/Syntax.lean ====
section
/-! DEFINITION. The instruction set: one constructor per row of spec/opcode_table.json (spec/30_encoding.md R75, R78). -/

namespace Sys2Proof

/-- The 34 instructions, in the opcode map's order (R75). X and Y are register fields, KK a byte, NNN a 12-bit
immediate, N a row count; each operand has exactly the width of its field, and every value of it is legal (R77). -/
inductive Instr where
  | cls                              -- 00E0  CLS
  | ret                              -- 00EE  RET
  | jp (nnn : Imm12)                 -- 1NNN  JP NNN
  | call (nnn : Imm12)               -- 2NNN  CALL NNN
  | seImm (x : Reg) (kk : Byte)      -- 3XKK  SE Vx, KK
  | sneImm (x : Reg) (kk : Byte)     -- 4XKK  SNE Vx, KK
  | seReg (x y : Reg)                -- 5XY0  SE Vx, Vy
  | ldImm (x : Reg) (kk : Byte)      -- 6XKK  LD Vx, KK
  | addImm (x : Reg) (kk : Byte)     -- 7XKK  ADD Vx, KK
  | ldReg (x y : Reg)                -- 8XY0  LD Vx, Vy
  | orReg (x y : Reg)                -- 8XY1  OR Vx, Vy
  | andReg (x y : Reg)               -- 8XY2  AND Vx, Vy
  | xorReg (x y : Reg)               -- 8XY3  XOR Vx, Vy
  | addReg (x y : Reg)               -- 8XY4  ADD Vx, Vy
  | sub (x y : Reg)                  -- 8XY5  SUB Vx, Vy
  | shr (x y : Reg)                  -- 8XY6  SHR Vx   (Y kept, so that encoding is exact: R78)
  | subn (x y : Reg)                 -- 8XY7  SUBN Vx, Vy
  | shl (x y : Reg)                  -- 8XYE  SHL Vx   (Y kept: R78)
  | sneReg (x y : Reg)               -- 9XY0  SNE Vx, Vy
  | ldI (nnn : Imm12)                -- ANNN  LD I, NNN
  | jpV0 (nnn : Imm12)               -- BNNN  JP V0, NNN
  | rnd (x : Reg) (kk : Byte)        -- CXKK  RND Vx, KK
  | drw (x y : Reg) (n : Nibble)     -- DXYN  DRW Vx, Vy, N
  | skp (x : Reg)                    -- EX9E  SKP Vx
  | sknp (x : Reg)                   -- EXA1  SKNP Vx
  | ldVxDt (x : Reg)                 -- FX07  LD Vx, DT
  | ldVxK (x : Reg)                  -- FX0A  LD Vx, K
  | ldDtVx (x : Reg)                 -- FX15  LD DT, Vx
  | ldStVx (x : Reg)                 -- FX18  LD ST, Vx
  | addI (x : Reg)                   -- FX1E  ADD I, Vx
  | ldF (x : Reg)                    -- FX29  LD F, Vx
  | ldB (x : Reg)                    -- FX33  LD B, Vx
  | ldMemVx (x : Reg)                -- FX55  LD [I], Vx
  | ldVxMem (x : Reg)                -- FX65  LD Vx, [I]
  deriving DecidableEq, Repr

end Sys2Proof
end

