-- ==== Sys2Proof/Decode.lean ====
section
/-! DEFINITION. The decoder (spec/30_encoding.md R74, R78), total on all words and on all byte lists, and the encoder,
written from the same encodings (R71, R72, R75). -/

namespace Sys2Proof

/-- Opcode bits 15:12, the family (R71). -/
def opField (w : Word) : Nibble := w.extractLsb' 12 4
/-- Opcode bits 11:8, X (R71). -/
def xField (w : Word) : Reg := w.extractLsb' 8 4
/-- Opcode bits 7:4, Y (R71). -/
def yField (w : Word) : Reg := w.extractLsb' 4 4
/-- Opcode bits 3:0, N (R71). -/
def nField (w : Word) : Nibble := w.extractLsb' 0 4
/-- Opcode bits 7:0, KK (R71). -/
def kkField (w : Word) : Byte := w.extractLsb' 0 8
/-- Opcode bits 11:0, NNN (R71). -/
def nnnField (w : Word) : Imm12 := w.extractLsb' 0 12

/-- What decoding a word answers: an instruction, or a rejection by name. -/
inductive Decoded where
  /-- The word is this instruction (R75). -/
  | instr (i : Instr)
  /-- The word matches no row of the opcode map (R76). -/
  | illegal (opcode : Word)
  deriving DecidableEq, Repr

/-- What decoding a list of bytes answers. -/
inductive DecodedBytes where
  /-- The first two bytes, decoded, and the bytes after them (R70). -/
  | word (d : Decoded) (rest : List Byte)
  /-- Fewer than two bytes were given; a fetch never gives so few, it faults (R60). -/
  | truncated
  deriving DecidableEq, Repr

/-- Family 0 compares all of bits 11:0 (R74, R78). -/
def decodeFamily0 (w : Word) : Decoded :=
  if nnnField w = 0x0E0#12 then .instr .cls
  else if nnnField w = 0x0EE#12 then .instr .ret
  else .illegal w

/-- Family 8 dispatches on bits 3:0 (R74, R78). -/
def decodeFamily8 (w : Word) : Decoded :=
  match nField w with
  | 0x0#4 => .instr (.ldReg (xField w) (yField w))
  | 0x1#4 => .instr (.orReg (xField w) (yField w))
  | 0x2#4 => .instr (.andReg (xField w) (yField w))
  | 0x3#4 => .instr (.xorReg (xField w) (yField w))
  | 0x4#4 => .instr (.addReg (xField w) (yField w))
  | 0x5#4 => .instr (.sub (xField w) (yField w))
  | 0x6#4 => .instr (.shr (xField w) (yField w))
  | 0x7#4 => .instr (.subn (xField w) (yField w))
  | 0xE#4 => .instr (.shl (xField w) (yField w))
  | _ => .illegal w

/-- Family E dispatches on bits 7:0 (R74, R78). -/
def decodeFamilyE (w : Word) : Decoded :=
  if kkField w = 0x9E#8 then .instr (.skp (xField w))
  else if kkField w = 0xA1#8 then .instr (.sknp (xField w))
  else .illegal w

/-- Family F dispatches on bits 7:0 (R74, R78). -/
def decodeFamilyF (w : Word) : Decoded :=
  match kkField w with
  | 0x07#8 => .instr (.ldVxDt (xField w))
  | 0x0A#8 => .instr (.ldVxK (xField w))
  | 0x15#8 => .instr (.ldDtVx (xField w))
  | 0x18#8 => .instr (.ldStVx (xField w))
  | 0x1E#8 => .instr (.addI (xField w))
  | 0x29#8 => .instr (.ldF (xField w))
  | 0x33#8 => .instr (.ldB (xField w))
  | 0x55#8 => .instr (.ldMemVx (xField w))
  | 0x65#8 => .instr (.ldVxMem (xField w))
  | _ => .illegal w

/-- The decoder, family by family (R78). Families 5 and 9 require bits 3:0 to be 0 (R74). -/
def decode (w : Word) : Decoded :=
  match opField w with
  | 0x0#4 => decodeFamily0 w
  | 0x1#4 => .instr (.jp (nnnField w))
  | 0x2#4 => .instr (.call (nnnField w))
  | 0x3#4 => .instr (.seImm (xField w) (kkField w))
  | 0x4#4 => .instr (.sneImm (xField w) (kkField w))
  | 0x5#4 => if nField w = 0x0#4 then .instr (.seReg (xField w) (yField w)) else .illegal w
  | 0x6#4 => .instr (.ldImm (xField w) (kkField w))
  | 0x7#4 => .instr (.addImm (xField w) (kkField w))
  | 0x8#4 => decodeFamily8 w
  | 0x9#4 => if nField w = 0x0#4 then .instr (.sneReg (xField w) (yField w)) else .illegal w
  | 0xA#4 => .instr (.ldI (nnnField w))
  | 0xB#4 => .instr (.jpV0 (nnnField w))
  | 0xC#4 => .instr (.rnd (xField w) (kkField w))
  | 0xD#4 => .instr (.drw (xField w) (yField w) (nField w))
  | 0xE#4 => decodeFamilyE w
  | _ => decodeFamilyF w

/-- The opcode of two bytes: the byte at the lower address is the high one (R53). -/
def opcodeOfBytes (high low : Byte) : Word := BitVec.cast (by decide) (high ++ low)

/-- The byte of an opcode at the lower address (R53, R71). -/
def highByte (w : Word) : Byte := w.extractLsb' 8 8

/-- The byte of an opcode at the higher address (R53, R71). -/
def lowByte (w : Word) : Byte := w.extractLsb' 0 8

/-- Decoding a list of bytes: every instruction is two of them (R70), and the rest of the list is handed back. -/
def decodeBytes : List Byte → DecodedBytes
  | high :: low :: rest => .word (decode (opcodeOfBytes high low)) rest
  | [_] => .truncated
  | [] => .truncated

/-- Format A: `oooo nnnn nnnn nnnn` (R72). -/
def wordA (op : Nibble) (nnn : Imm12) : Word := BitVec.cast (by decide) (op ++ nnn)
/-- Format XK: `oooo xxxx kkkk kkkk` (R72); format XF is XK with a fixed low byte. -/
def wordXK (op : Nibble) (x : Reg) (kk : Byte) : Word := BitVec.cast (by decide) (op ++ x ++ kk)
/-- Format XYN: `oooo xxxx yyyy nnnn` (R72); format XY is XYN with a fixed low nibble. -/
def wordXYN (op : Nibble) (x y : Reg) (n : Nibble) : Word := BitVec.cast (by decide) (op ++ x ++ y ++ n)

/-- The encoder: each instruction's fields laid out in its format (R72, R75). -/
def encode : Instr → Word
  | .cls => 0x00E0#16
  | .ret => 0x00EE#16
  | .jp nnn => wordA 0x1#4 nnn
  | .call nnn => wordA 0x2#4 nnn
  | .seImm x kk => wordXK 0x3#4 x kk
  | .sneImm x kk => wordXK 0x4#4 x kk
  | .seReg x y => wordXYN 0x5#4 x y 0x0#4
  | .ldImm x kk => wordXK 0x6#4 x kk
  | .addImm x kk => wordXK 0x7#4 x kk
  | .ldReg x y => wordXYN 0x8#4 x y 0x0#4
  | .orReg x y => wordXYN 0x8#4 x y 0x1#4
  | .andReg x y => wordXYN 0x8#4 x y 0x2#4
  | .xorReg x y => wordXYN 0x8#4 x y 0x3#4
  | .addReg x y => wordXYN 0x8#4 x y 0x4#4
  | .sub x y => wordXYN 0x8#4 x y 0x5#4
  | .shr x y => wordXYN 0x8#4 x y 0x6#4
  | .subn x y => wordXYN 0x8#4 x y 0x7#4
  | .shl x y => wordXYN 0x8#4 x y 0xE#4
  | .sneReg x y => wordXYN 0x9#4 x y 0x0#4
  | .ldI nnn => wordA 0xA#4 nnn
  | .jpV0 nnn => wordA 0xB#4 nnn
  | .rnd x kk => wordXK 0xC#4 x kk
  | .drw x y n => wordXYN 0xD#4 x y n
  | .skp x => wordXK 0xE#4 x 0x9E#8
  | .sknp x => wordXK 0xE#4 x 0xA1#8
  | .ldVxDt x => wordXK 0xF#4 x 0x07#8
  | .ldVxK x => wordXK 0xF#4 x 0x0A#8
  | .ldDtVx x => wordXK 0xF#4 x 0x15#8
  | .ldStVx x => wordXK 0xF#4 x 0x18#8
  | .addI x => wordXK 0xF#4 x 0x1E#8
  | .ldF x => wordXK 0xF#4 x 0x29#8
  | .ldB x => wordXK 0xF#4 x 0x33#8
  | .ldMemVx x => wordXK 0xF#4 x 0x55#8
  | .ldVxMem x => wordXK 0xF#4 x 0x65#8

/-- The instruction's two bytes in the order memory holds them (R53). -/
def encodeBytes (i : Instr) : List Byte := [highByte (encode i), lowByte (encode i)]

/-- The 16-bit opcode that a table word stands for: its low `nbits` bits, every bit above them 0. -/
def tableOpcode (nbits w : Nat) : Word := BitVec.ofNat 16 (w % 2 ^ nbits)

/-- The instruction this decoder reads from a word numbered as spec/opcode_table.json numbers it (bit 0 the least
significant bit of the opcode), laid out in memory order first (R53). -/
def decodeTableWord (nbits w : Nat) : Option Instr :=
  match decodeBytes [highByte (tableOpcode nbits w), lowByte (tableOpcode nbits w)] with
  | .word (.instr i) _ => some i
  | .word (.illegal _) _ => none
  | .truncated => none

end Sys2Proof
end

