-- ==== Sys2Proof/Machine/Font.lean ====
section
/-! DEFINITION. The font region's content, parameter FONT, and its default table (spec/20_memory.md R52). -/

namespace Sys2Proof.Machine

/-- A value of the parameter FONT[0..79]: 16 glyphs of 5 bytes (R6, R52). -/
abbrev Font := Vector Byte Config.fontSize

/-- The default FONT table's bytes, glyph by glyph (R52). PRESUMED: the spec takes them from general knowledge (G1, D11);
log entry 4. -/
def defaultFontBytes : List Byte :=
  [0xF0, 0x90, 0x90, 0x90, 0xF0,  0x20, 0x60, 0x20, 0x20, 0x70,  0xF0, 0x10, 0xF0, 0x80, 0xF0,
   0xF0, 0x10, 0xF0, 0x10, 0xF0,  0x90, 0x90, 0xF0, 0x10, 0x10] ++
  [0xF0, 0x80, 0xF0, 0x10, 0xF0,  0xF0, 0x80, 0xF0, 0x90, 0xF0,  0xF0, 0x10, 0x20, 0x40, 0x40,
   0xF0, 0x90, 0xF0, 0x90, 0xF0,  0xF0, 0x90, 0xF0, 0x10, 0xF0] ++
  [0xF0, 0x90, 0xF0, 0x90, 0x90,  0xE0, 0x90, 0xE0, 0x90, 0xE0,  0xF0, 0x80, 0x80, 0x80, 0xF0,
   0xE0, 0x90, 0x90, 0x90, 0xE0,  0xF0, 0x80, 0xF0, 0x80, 0xF0,  0xF0, 0x80, 0xF0, 0x80, 0x80]

/-- The default FONT (R52). -/
def defaultFont : Font := ⟨defaultFontBytes.toArray, by decide⟩

end Sys2Proof.Machine
end

