-- ==== Sys2Proof/Machine/State.lean ====
section
/-! DEFINITION. The Machine: its state, its faults, its reset value (spec/10_state.md R20 to R37, spec/60_exceptions.md
R160). -/

namespace Sys2Proof.Machine

/-- Which bound of the call stack was passed (spec/60_exceptions.md R160 rows 4 and 5). -/
inductive StackBound where
  | overflow
  | underflow
  deriving DecidableEq, Repr

/-- Why INIT takes an image not (R160 row 1). The source's other reason, an unreadable file, is out of scope (R4 (a)). -/
inductive LoadReason where
  | tooLarge
  deriving DecidableEq, Repr

/-- The faults of the hardware (R160). A fault is the outcome of the failing operation and changes nothing (R167), so
every one of them is the spec's own and SAFE: the machine reports it and goes no further. -/
inductive Fault where
  /-- INIT with an image of `length` > 3584 bytes raises it (R166, R192). Safe. -/
  | loadFault (reason : LoadReason) (length : Nat)
  /-- The fetch, DXYN, FX33, FX55, FX65 raise it: an address they would access is 4096 or more; `address` is the lowest
  such (R162). Safe. -/
  | addressFault (address : Nat)
  /-- STEP raises it in place of an instruction: the fetched opcode is none of the 34 (R161). Safe. -/
  | decodeFault (opcode : Word)
  /-- 2NNN raises it at sp = 16 (R163) and 00EE at sp = 0 (R164), each with its raw opcode. Safe. -/
  | stackFault (bound : StackBound) (opcode : Word)
  /-- EX9E and EXA1 raise it when V[X], the value reported, is above 15 (R165). Safe. -/
  | keyIndexFault (value : Byte)
  deriving DecidableEq, Repr

/-- Why the model gives an instruction no meaning. Every instruction has one, so no step answers with it. -/
inductive Refusal where
  /-- An arm of exec raises it for an instruction that has no meaning yet; there is none left. Safe. -/
  | notModelled (mnemonic : String)
  deriving DecidableEq, Repr

/-- The Machine (R20): the only state there is, one field each, and the model's own `draws`. -/
structure State where
  /-- `program_counter` (R23). -/
  pc : Word
  /-- `registers` V0..VF (R21); V[0xF] is the only flag (R22). -/
  v : Vector Byte 16
  /-- `address_register` I (R25). -/
  i : Word
  /-- The stack pointer: the number of saved return addresses, 0..16 (R27). -/
  sp : Fin 17
  /-- The call stack's 16 slots (R26). -/
  stack : Vector Word 16
  /-- `delay_timer` DT (R28). -/
  dt : Byte
  /-- `sound_timer` ST (R28). -/
  st : Byte
  /-- `keypad` (R29); true is pressed. -/
  keys : Vector Bool 16
  /-- `framebuffer` (R30): cell y*64 + x; an unlisted cell is 0x00 (log entry 6). -/
  fb : List Host.Cell
  /-- `memory` (R31): an unlisted address reads as after INIT of the empty image (log entry 6). -/
  mem : List Host.Cell
  /-- The model's own: how many bytes the random source has given (R33, R123; log entry 2). -/
  draws : Nat
  deriving DecidableEq, Repr

/-- What an operation answers: the next state, or a fault that changes nothing (R167). -/
abbrev StepOutcome := Host.Outcome State Fault Refusal

/-- The Machine right after INIT of the empty image (R37, R192), with the default FONT (log entries 4 and 5). `draws` 0
is the model's choice (log entry 2). -/
def State.reset : State where
  pc := 0x0200#16
  v := Vector.replicate 16 0x00#8
  i := 0x0000#16
  sp := 0
  stack := Vector.replicate 16 0x0000#16
  dt := 0x00#8
  st := 0x00#8
  keys := Vector.replicate 16 false
  fb := []
  mem := []
  draws := 0

end Sys2Proof.Machine
end

