-- ==== Sys2Proof/Machine/Memory.lean ====
section
/-! DEFINITION. Byte storages as plain data: a list of cells in one canonical form (indexes strictly rising, no entry equal
to what an unlisted index reads as). `memory` (spec/20_memory.md R51) and `framebuffer` (spec/43_display.md R140) are two
storages of this kind (log entry 6). -/

namespace Sys2Proof.Machine

/-- The byte at index `a`: the first entry for it, else the storage's unlisted byte. -/
def Cells.read (unlisted : Nat → Byte) (l : List Host.Cell) (a : Nat) : Byte :=
  match l with
  | [] => unlisted a
  | c :: rest => if c.1 = a then c.2 else Cells.read unlisted rest a

/-- The list without any entry for index `a`. -/
def Cells.erase (l : List Host.Cell) (a : Nat) : List Host.Cell := l.filter (fun c => c.1 != a)

/-- The list with an entry for index `a` put before the first higher index. -/
def Cells.insert (l : List Host.Cell) (a : Nat) (b : Byte) : List Host.Cell :=
  match l with
  | [] => [(a, b)]
  | c :: rest => if a < c.1 then (a, b) :: c :: rest else c :: Cells.insert rest a b

/-- Writing byte `b` at index `a`; writing the unlisted byte removes the entry, so the canonical form is kept. -/
def Cells.write (unlisted : Nat → Byte) (l : List Host.Cell) (a : Nat) (b : Byte) : List Host.Cell :=
  if b = unlisted a then Cells.erase l a else Cells.insert (Cells.erase l a) a b

/-- The canonical form of a storage of `size` bytes. -/
abbrev Cells.wf (unlisted : Nat → Byte) (size : Nat) (l : List Host.Cell) : Prop :=
  l.Pairwise (fun c d => c.1 < d.1) ∧ ∀ c ∈ l, c.1 < size ∧ c.2 ≠ unlisted c.1

/-- What an unlisted address of memory reads as: memory after INIT of the empty image, FONT at 0x000..0x04F and 0x00 from
0x050 on (R37, R51, R191; log entry 4 for the FONT bytes). -/
def Memory.unlisted (a : Nat) : Byte := defaultFontBytes.getD a 0x00#8

/-- The byte of memory at an address. -/
def Memory.read (m : List Host.Cell) (a : Nat) : Byte := Cells.read Memory.unlisted m a

/-- Memory with a byte stored at an address. -/
def Memory.write (m : List Host.Cell) (a : Nat) (b : Byte) : List Host.Cell := Cells.write Memory.unlisted m a b

/-- Memory is in canonical form and lists addresses 0x000..0xFFF only. -/
abbrev Memory.wf (m : List Host.Cell) : Prop := Cells.wf Memory.unlisted Config.memSize m

/-- What an unlisted framebuffer cell reads as: off (R30, R37). -/
def Framebuffer.unlisted (_ : Nat) : Byte := 0x00#8

/-- The framebuffer cell at an index. -/
def Framebuffer.read (fb : List Host.Cell) (k : Nat) : Byte := Cells.read Framebuffer.unlisted fb k

/-- The framebuffer with a cell set. -/
def Framebuffer.write (fb : List Host.Cell) (k : Nat) (b : Byte) : List Host.Cell := Cells.write Framebuffer.unlisted fb k b

/-- The framebuffer is in canonical form and lists cells 0..2047 only. -/
abbrev Framebuffer.wf (fb : List Host.Cell) : Prop := Cells.wf Framebuffer.unlisted Config.fbSize fb

end Sys2Proof.Machine
end

