-- ==== Sys2Proof/Machine/Ops.lean ====
section
/-! DEFINITION. The named operations over the Machine: field updates, registers, memory, fetch, the call stack, pixels, the
one way to raise a fault, INIT, TICK and the host's key write. -/

namespace Sys2Proof.Machine

/-- `pc <- target` (R8). -/
def State.setPc (s : State) (target : Word) : State := { s with pc := target }
/-- `I <- a` (R25). -/
def State.setI (s : State) (a : Word) : State := { s with i := a }
/-- `DT <- b` (R28). -/
def State.setDt (s : State) (b : Byte) : State := { s with dt := b }
/-- `ST <- b` (R28). -/
def State.setSt (s : State) (b : Byte) : State := { s with st := b }
/-- The call stack's slots and pointer replaced (R26). -/
def State.setStack (s : State) (slots : Vector Word 16) (sp : Fin 17) : State := { s with stack := slots, sp := sp }
/-- The keypad replaced (R29). -/
def State.setKeys (s : State) (keys : Vector Bool 16) : State := { s with keys := keys }
/-- The framebuffer replaced (R30). -/
def State.setFb (s : State) (fb : List Host.Cell) : State := { s with fb := fb }
/-- Memory replaced (R31). -/
def State.setMem (s : State) (mem : List Host.Cell) : State := { s with mem := mem }
/-- One more byte taken from the random source (R123). -/
def State.countDraw (s : State) : State := { s with draws := s.draws + 1 }

/-- `V[x]` (R21). There is no hardwired register: reads and writes go to the one bank. -/
def State.reg (s : State) (x : Reg) : Byte := s.v[x.toNat]'x.isLt
/-- `V[x] <- b` (R21). -/
def State.setReg (s : State) (x : Reg) (b : Byte) : State := { s with v := s.v.set x.toNat b x.isLt }

/-- `pc <- (pc + n) mod 65536` (R24, R100 (c)). -/
def State.advance (s : State) (n : Word) : State := s.setPc (s.pc + n)

/-- The one shared operation that raises a fault (R167, R168). Taking it saves nothing, changes no field and goes to no
handler: the fault IS the outcome, and the state before it stays as it was. There is no return from it (R171). -/
def raise (f : Fault) : StepOutcome := .fault f

/-- `mem[a]` (R31). -/
def State.readByte (s : State) (a : Nat) : Byte := Memory.read s.mem a
/-- `mem[a] <- b`; who calls it has checked the address (R58). -/
def State.writeByte (s : State) (a : Nat) (b : Byte) : State := s.setMem (Memory.write s.mem a b)
/-- `mem[a] <- b0; mem[a+1] <- b1; …` in increasing address order (R54). -/
def State.storeBytes (s : State) (a : Nat) (bytes : List Byte) : State :=
  match bytes with
  | [] => s
  | b :: rest => (s.writeByte a b).storeBytes (a + 1) rest

/-- All of the n bytes from address a lie in memory; no bytes are always so (R57, R58). -/
def inMemory (a n : Nat) : Bool := n == 0 || decide (a + n ≤ Config.memSize)
/-- The lowest address of 4096 or more among `a, a+1, …`, where some are (R57). -/
def firstOutside (a : Nat) : Nat := max a Config.memSize
/-- All n addresses from a are checked before the transfer does anything (R58, R130). -/
def guardTransfer (a n : Nat) (transfer : StepOutcome) : StepOutcome :=
  if inMemory a n then transfer else raise (.addressFault (firstOutside a))

/-- What the fetch answers. -/
inductive Fetched where
  /-- The opcode at pc. -/
  | opcode (w : Word)
  /-- A byte of it lies outside memory; the lowest such address (R60). -/
  | outside (address : Nat)
  deriving DecidableEq, Repr

/-- The fetch: two bytes at pc, big-endian, from memory as it is now (R53, R60, R65). It changes nothing. -/
def State.fetch (s : State) : Fetched :=
  if inMemory s.pc.toNat 2 then .opcode (opcodeOfBytes (s.readByte s.pc.toNat) (s.readByte (s.pc.toNat + 1)))
  else .outside (firstOutside s.pc.toNat)

/-- `stack[sp] <- a; sp <- sp + 1`, or nothing where all 16 slots are in use (R26, R103). -/
def State.push (s : State) (a : Word) : Option State :=
  if h : s.sp.val < 16 then some (s.setStack (s.stack.set s.sp.val a h) ⟨s.sp.val + 1, by omega⟩) else none

/-- The top slot's value and the state with `sp <- sp - 1`, the slot kept as it is, or nothing where no slot is in use
(R26, R102). -/
def State.pop (s : State) : Option (Word × State) :=
  if h : 0 < s.sp.val then
    some (s.stack[s.sp.val - 1]'(by omega), s.setStack s.stack ⟨s.sp.val - 1, by omega⟩)
  else none

/-- The index of the cell of column x and row y (R8, R140). -/
def cellIndex (x y : Nat) : Nat := y * Config.viewWidth + x
/-- The pixel at column x and row y (R140). -/
def State.pixel (s : State) (x y : Nat) : Byte := Framebuffer.read s.fb (cellIndex x y)

/-- `key[k]` (R29). -/
def State.key (s : State) (k : Nibble) : Bool := s.keys[k.toNat]'k.isLt
/-- The least pressed key, if any is (R153). -/
def State.firstKey (s : State) : Option Nat := (List.range 16).find? (fun k => s.key (BitVec.ofNat 4 k))

/-- A timer after one tick: one less, floored at 0 (R174). -/
def countDown (t : Byte) : Byte := if t = 0x00#8 then 0x00#8 else t - 1
/-- TICK (R174): both timers, nothing else; it cannot fail. -/
def State.tick (s : State) : State := (s.setDt (countDown s.dt)).setSt (countDown s.st)

/-- The host writes `key[k]` (R29, R177). -/
def State.writeKey (s : State) (k : Nibble) (pressed : Bool) : State := s.setKeys (s.keys.set k.toNat pressed k.isLt)

/-- Memory after INIT: FONT at 0x000, the image at 0x200, 0x00 everywhere else (R190, R191). -/
def imageMemory (font : Font) (image : List Byte) : List Host.Cell :=
  ((State.reset.storeBytes Config.fontBase font.toList).storeBytes Config.programBase image).mem

/-- INIT(image) for a hardware of this FONT (R190): a fresh Machine, or LoadFault where the image is too large (R192).
`draws` is how many bytes the random source has given before: it is no field of the Machine (R33), so INIT does not turn it
back (log entry 3). -/
def init (font : Font) (image : List Byte) (draws : Nat) : StepOutcome :=
  if wellFormedImage image then .next { State.reset with mem := imageMemory font image, draws := draws }
  else raise (.loadFault .tooLarge image.length)

end Sys2Proof.Machine
end

