-- ==== Sys2Proof/Machine/Operands.lean ====
section
/-! DEFINITION. The operand forms: immediates, the effective address I + k, register ranges, decimal digits, key indexes,
and the skip (spec/30_encoding.md R73, spec/20_memory.md R61). -/

namespace Sys2Proof.Machine

/-- `zext_16(NNN)` (R73). -/
def addressOf (nnn : Imm12) : Word := nnn.setWidth 16
/-- `zext_16(b)` (R7). -/
def widen (b : Byte) : Word := b.setWidth 16

/-- The effective address I + k, an unbounded integer: no wrap at 12 or 16 bits (R61, R130). -/
def State.effective (s : State) (k : Nat) : Nat := s.i.toNat + k

/-- V[0], V[1], …, V[x]: the operand of FX55 (R135). -/
def State.regsUpTo (s : State) (x : Reg) : List Byte := (List.range (x.toNat + 1)).map (fun k => s.reg (BitVec.ofNat 4 k))

/-- `V[k] <- bytes[k]` for each of the bytes, k counting from `first` (R136). -/
def State.setRegs (s : State) (first : Nat) (bytes : List Byte) : State :=
  match bytes with
  | [] => s
  | b :: rest => (s.setReg (BitVec.ofNat 4 first) b).setRegs (first + 1) rest

/-- The n bytes of memory from address a on, in increasing address order (R54, R57). -/
def State.readBytes (s : State) (a n : Nat) : List Byte := (List.range n).map (fun k => s.readByte (a + k))

/-- Hundreds, tens, ones: the three bytes FX33 stores (R134, R122). -/
def decimalDigits (b : Byte) : List Byte :=
  [BitVec.ofNat 8 (b.toNat / 100), BitVec.ofNat 8 (b.toNat / 10 % 10), BitVec.ofNat 8 (b.toNat % 10)]

/-- EX9E and EXA1 index the keypad with the whole byte; above 15 they fault (R150, R165). -/
def guardKey (b : Byte) (body : Nibble → StepOutcome) : StepOutcome :=
  if b.toNat ≤ 15 then body (BitVec.ofNat 4 b.toNat) else raise (.keyIndexFault b)

/-- A skip: exactly 4 where taken, 2 where not; the skipped bytes are not looked at (R105, R109). -/
def State.skipIf (s : State) (taken : Bool) : State := s.advance (if taken then 4#16 else 2#16)

/-- Every instruction that does not set pc itself ends with `pc <- pc + 2` (R23). -/
def done (s : State) : StepOutcome := .next (s.advance 2#16)

end Sys2Proof.Machine
end

