-- ==== Sys2Proof/Machine/Flags.lean ====
section
/-! DEFINITION. The flag computations (spec/10_state.md R22): each a function of the operands before the instruction, and
the one operation that writes a result and then the flag (spec/41_alu.md R110). -/

namespace Sys2Proof.Machine

/-- The register that is the flag, VF (R22). -/
def vf : Reg := 0xF#4

/-- A condition as the flag byte: 1 or 0 (R22). -/
def flagByte (c : Bool) : Byte := if c then 0x01#8 else 0x00#8

/-- 8XY4: the 9-bit sum exceeds 255 (R117). -/
def carryFlag (a b : Byte) : Byte := flagByte (decide (255 < a.toNat + b.toNat))
/-- 8XY5, 8XY7: no borrow in a - b, equality included (R118, R120). -/
def noBorrowFlag (a b : Byte) : Byte := flagByte (decide (b.toNat ≤ a.toNat))
/-- 8XY6: bit 0, shifted out to the right (R119). -/
def rightOutFlag (a : Byte) : Byte := flagByte (a.getLsbD 0)
/-- 8XYE: bit 7, shifted out to the left (R121). -/
def leftOutFlag (a : Byte) : Byte := flagByte (a.getLsbD 7)

/-- `V[x] <- result`, then `V[0xF] <- flag`, last (R110). -/
def State.setResultThenFlag (s : State) (x : Reg) (result flag : Byte) : State := (s.setReg x result).setReg vf flag

end Sys2Proof.Machine
end

