-- ==== Sys2Proof/Machine/Alu.lean ====
section
/-! DEFINITION. Register load, arithmetic, logic, shift and random instructions (spec/41_alu.md). None can fault. -/

namespace Sys2Proof.Machine

/-- 6XKK (R111). -/
def execLdImm (x : Reg) (kk : Byte) (s : State) : StepOutcome := done (s.setReg x kk)
/-- 7XKK, no flag (R112). -/
def execAddImm (x : Reg) (kk : Byte) (s : State) : StepOutcome := done (s.setReg x (s.reg x + kk))
/-- 8XY0 (R113). -/
def execLdReg (x y : Reg) (s : State) : StepOutcome := done (s.setReg x (s.reg y))
/-- 8XY1, VF unchanged (R114). -/
def execOrReg (x y : Reg) (s : State) : StepOutcome := done (s.setReg x (s.reg x ||| s.reg y))
/-- 8XY2, VF unchanged (R115). -/
def execAndReg (x y : Reg) (s : State) : StepOutcome := done (s.setReg x (s.reg x &&& s.reg y))
/-- 8XY3, VF unchanged (R116). -/
def execXorReg (x y : Reg) (s : State) : StepOutcome := done (s.setReg x (s.reg x ^^^ s.reg y))
/-- 8XY4: add, VF = carry (R117). -/
def execAddReg (x y : Reg) (s : State) : StepOutcome :=
  done (s.setResultThenFlag x (s.reg x + s.reg y) (carryFlag (s.reg x) (s.reg y)))
/-- 8XY5: V[X] - V[Y], VF = no borrow (R118). -/
def execSub (x y : Reg) (s : State) : StepOutcome :=
  done (s.setResultThenFlag x (s.reg x - s.reg y) (noBorrowFlag (s.reg x) (s.reg y)))
/-- 8XY6: V[X] shifted right by one; Y is encoded and ignored (R119). -/
def execShr (x _y : Reg) (s : State) : StepOutcome :=
  done (s.setResultThenFlag x (s.reg x >>> 1) (rightOutFlag (s.reg x)))
/-- 8XY7: V[Y] - V[X], VF = no borrow (R120). -/
def execSubn (x y : Reg) (s : State) : StepOutcome :=
  done (s.setResultThenFlag x (s.reg y - s.reg x) (noBorrowFlag (s.reg y) (s.reg x)))
/-- 8XYE: V[X] shifted left by one; Y is encoded and ignored (R121). -/
def execShl (x _y : Reg) (s : State) : StepOutcome :=
  done (s.setResultThenFlag x (s.reg x <<< 1) (leftOutFlag (s.reg x)))
/-- CXKK: the next byte of the random source under a mask (R123; the byte is the free value `Config.rnd`, log entry 2). -/
def execRnd (x : Reg) (kk : Byte) (s : State) : StepOutcome :=
  done ((s.setReg x (Config.rnd s.draws &&& kk)).countDraw)

end Sys2Proof.Machine
end

