-- ==== Sys2Proof/Machine/Display.lean ====
section
/-! DEFINITION. Clear and draw (spec/43_display.md). -/

namespace Sys2Proof.Machine

/-- 00E0: every cell 0x00 (R141). -/
def execCls (s : State) : StepOutcome := done (s.setFb [])

/-- Sprite bit b of a row, b = 0 the leftmost pixel: bit 7 of the byte is leftmost (R142; D10). -/
def spriteBit (byte : Byte) (b : Nat) : Bool := byte.getLsbD (7 - b)

/-- One set sprite bit over one cell: XOR with 0xFF, and a collision if the cell was on (R142). -/
def drawCell (x y : Nat) (acc : List Host.Cell × Bool) : List Host.Cell × Bool :=
  (Framebuffer.write acc.1 (cellIndex x y) (Framebuffer.read acc.1 (cellIndex x y) ^^^ 0xFF#8),
   acc.2 || Framebuffer.read acc.1 (cellIndex x y) == 0xFF#8)

/-- One sprite row at row y of the screen: its bits from the left, stopping at the right edge (R142: `if x >= 64: break`). -/
def drawRow (x0 y : Nat) (byte : Byte) (acc : List Host.Cell × Bool) : List Host.Cell × Bool :=
  (List.range (min 8 (Config.viewWidth - x0))).foldl
    (fun acc b => if spriteBit byte b then drawCell (x0 + b) y acc else acc) acc

/-- How many rows of the sprite are not clipped: those with y0 + r <= 31 (R142). -/
def visibleRows (n : Nibble) (y0 : Nat) : Nat := min n.toNat (Config.viewHeight - y0)

/-- The rows of the sprite at (x0, y0), one byte of memory each from `base` on (R142). -/
def State.drawSprite (s : State) (x0 y0 base rows : Nat) : List Host.Cell × Bool :=
  (List.range rows).foldl (fun acc r => drawRow x0 (y0 + r) (s.readByte (base + r)) acc) (s.fb, false)

/-- DXYN (R142). Coordinates are not reduced (R140); clipped rows are not read and cannot fault; VF is written last. -/
def execDrw (x y : Reg) (n : Nibble) (s : State) : StepOutcome :=
  let x0 := (s.reg x).toNat
  let y0 := (s.reg y).toNat
  let rows := visibleRows n y0
  let drawn := s.drawSprite x0 y0 (s.effective 0) rows
  guardTransfer (s.effective 0) rows (done ((s.setFb drawn.1).setReg vf (flagByte drawn.2)))

end Sys2Proof.Machine
end

