-- ==== Sys2Proof/Machine/Flow.lean ====
section
/-! DEFINITION. Jumps, call and return, register skips (spec/40_flow.md). -/

namespace Sys2Proof.Machine

/-- 1NNN (R101). -/
def execJp (nnn : Imm12) (s : State) : StepOutcome := .next (s.setPc (addressOf nnn))
/-- 00EE (R102): the popped value is the address of the 2NNN, so 2 is added; at sp = 0 a StackFault (R164). -/
def execRet (s : State) : StepOutcome :=
  match s.pop with
  | some (t, popped) => .next (popped.setPc (t + 2#16))
  | none => raise (.stackFault .underflow (encode .ret))
/-- 2NNN (R103): the address of this CALL itself is pushed; at sp = 16 a StackFault with the raw opcode (R163). -/
def execCall (nnn : Imm12) (s : State) : StepOutcome :=
  match s.push s.pc with
  | some pushed => .next (pushed.setPc (addressOf nnn))
  | none => raise (.stackFault .overflow (encode (.call nnn)))
/-- BNNN (R104): always V[0]; the sum is not reduced mod 4096. -/
def execJpV0 (nnn : Imm12) (s : State) : StepOutcome := .next (s.setPc (addressOf nnn + widen (s.reg 0x0#4)))
/-- 3XKK (R105). -/
def execSeImm (x : Reg) (kk : Byte) (s : State) : StepOutcome := .next (s.skipIf (s.reg x == kk))
/-- 4XKK (R106). -/
def execSneImm (x : Reg) (kk : Byte) (s : State) : StepOutcome := .next (s.skipIf (s.reg x != kk))
/-- 5XY0 (R107). -/
def execSeReg (x y : Reg) (s : State) : StepOutcome := .next (s.skipIf (s.reg x == s.reg y))
/-- 9XY0 (R108). -/
def execSneReg (x y : Reg) (s : State) : StepOutcome := .next (s.skipIf (s.reg x != s.reg y))

end Sys2Proof.Machine
end

