-- ==== Sys2Proof/Machine/Index.lean ====
section
/-! DEFINITION. Address register and memory transfer instructions (spec/42_index_memory.md). No transfer changes I. -/

namespace Sys2Proof.Machine

/-- ANNN (R131). -/
def execLdI (nnn : Imm12) (s : State) : StepOutcome := done (s.setI (addressOf nnn))
/-- FX1E: 16-bit sum, no flag (R132). -/
def execAddI (x : Reg) (s : State) : StepOutcome := done (s.setI (s.i + widen (s.reg x)))
/-- FX29: the whole byte times 5 (R133). -/
def execLdF (x : Reg) (s : State) : StepOutcome := done (s.setI (BitVec.ofNat 16 ((s.reg x).toNat * Config.glyphSize)))
/-- FX33: the three decimal digits at I, I+1, I+2 (R134). -/
def execLdB (x : Reg) (s : State) : StepOutcome :=
  guardTransfer (s.effective 0) 3 (done (s.storeBytes (s.effective 0) (decimalDigits (s.reg x))))
/-- FX55: V[0]..V[X] to I..I+X (R135). -/
def execLdMemVx (x : Reg) (s : State) : StepOutcome :=
  guardTransfer (s.effective 0) (x.toNat + 1) (done (s.storeBytes (s.effective 0) (s.regsUpTo x)))
/-- FX65: I..I+X to V[0]..V[X] (R136). -/
def execLdVxMem (x : Reg) (s : State) : StepOutcome :=
  guardTransfer (s.effective 0) (x.toNat + 1) (done (s.setRegs 0 (s.readBytes (s.effective 0) (x.toNat + 1))))

end Sys2Proof.Machine
end

