-- ==== Sys2Proof/Machine/Keypad.lean ====
section
/-! DEFINITION. Keypad and timer instructions (spec/44_keypad_timers.md). -/

namespace Sys2Proof.Machine

/-- EX9E (R151). -/
def execSkp (x : Reg) (s : State) : StepOutcome := guardKey (s.reg x) (fun k => .next (s.skipIf (s.key k)))
/-- EXA1 (R152). -/
def execSknp (x : Reg) (s : State) : StepOutcome := guardKey (s.reg x) (fun k => .next (s.skipIf (!s.key k)))
/-- FX0A (R153): a poll; with no key pressed the STEP is done and nothing changes, pc included. -/
def execLdVxK (x : Reg) (s : State) : StepOutcome :=
  match s.firstKey with
  | some k => done (s.setReg x (BitVec.ofNat 8 k))
  | none => .next s
/-- FX07 (R154). -/
def execLdVxDt (x : Reg) (s : State) : StepOutcome := done (s.setReg x s.dt)
/-- FX15 (R155). -/
def execLdDtVx (x : Reg) (s : State) : StepOutcome := done (s.setDt (s.reg x))
/-- FX18 (R156). -/
def execLdStVx (x : Reg) (s : State) : StepOutcome := done (s.setSt (s.reg x))

end Sys2Proof.Machine
end

