-- ==== Sys2Proof/Machine/Step.lean ====
section
/-! DEFINITION. STEP, "advance one instruction" (spec/40_flow.md R100). -/

namespace Sys2Proof.Machine

/-- STEP (R100): fetch, decode, execute; one fault at most, in this order (R169). A fault leaves the state as it was
(R167). -/
def step (s : State) : StepOutcome :=
  match s.fetch with
  | .outside a => raise (.addressFault a)
  | .opcode w =>
    match decode w with
    | .instr i => exec i s
    | .illegal w => raise (.decodeFault w)

/-- s with the instruction of a table word stored where step fetches next: its high byte at pc, its low byte at pc + 1
(R53). Where pc lies outside memory no instruction can be fetched, so pc is put at 0x200 first (log entry 5). -/
def State.withFetchWord (s : State) (nbits w : Nat) : State :=
  let placed := if inMemory s.pc.toNat 2 then s else s.setPc 0x0200#16
  placed.storeBytes placed.pc.toNat [highByte (tableOpcode nbits w), lowByte (tableOpcode nbits w)]

end Sys2Proof.Machine
end

