-- ==== Sys2Proof/Assembly.lean ====
section
/-! DEFINITION. The assembler syntax (spec/30_encoding.md R79): how an instruction is written. The mnemonics are the spec's own
choice from general knowledge (D21, log entry 8); no meaning depends on them. -/

namespace Sys2Proof

/-- One hexadecimal digit. -/
def hexDigit (n : Nibble) : String :=
  match n with
  | 0x0#4 => "0" | 0x1#4 => "1" | 0x2#4 => "2" | 0x3#4 => "3" | 0x4#4 => "4" | 0x5#4 => "5" | 0x6#4 => "6" | 0x7#4 => "7"
  | 0x8#4 => "8" | 0x9#4 => "9" | 0xA#4 => "A" | 0xB#4 => "B" | 0xC#4 => "C" | 0xD#4 => "D" | 0xE#4 => "E" | _ => "F"

/-- A general register, `V0`..`VF`. -/
def asmReg (x : Reg) : String := "V" ++ hexDigit x
/-- A 4-bit literal. -/
def asmNibble (n : Nibble) : String := "0x" ++ hexDigit n
/-- A byte literal. -/
def asmByte (b : Byte) : String := "0x" ++ hexDigit (b.extractLsb' 4 4) ++ hexDigit (b.extractLsb' 0 4)
/-- A 12-bit literal. -/
def asmImm12 (nnn : Imm12) : String :=
  "0x" ++ hexDigit (nnn.extractLsb' 8 4) ++ hexDigit (nnn.extractLsb' 4 4) ++ hexDigit (nnn.extractLsb' 0 4)
/-- A data byte, `DB 0xNN`; not an instruction (R80). -/
def asmData (b : Byte) : String := "DB " ++ asmByte b
/-- A mnemonic with two operands. -/
def asmTwo (name a b : String) : String := name ++ " " ++ a ++ ", " ++ b
/-- `SHR` and `SHL`: the ignored Y is written only where it is not 0 (R79). -/
def asmShift (name : String) (x y : Reg) : String :=
  if y = 0x0#4 then name ++ " " ++ asmReg x else asmTwo name (asmReg x) (asmReg y)

/-- The instruction as a line of assembler. -/
def assembly (i : Instr) : String :=
  match i with
  | .cls => "CLS"
  | .ret => "RET"
  | .jp nnn => "JP " ++ asmImm12 nnn
  | .call nnn => "CALL " ++ asmImm12 nnn
  | .seImm x kk => asmTwo "SE" (asmReg x) (asmByte kk)
  | .sneImm x kk => asmTwo "SNE" (asmReg x) (asmByte kk)
  | .seReg x y => asmTwo "SE" (asmReg x) (asmReg y)
  | .ldImm x kk => asmTwo "LD" (asmReg x) (asmByte kk)
  | .addImm x kk => asmTwo "ADD" (asmReg x) (asmByte kk)
  | .ldReg x y => asmTwo "LD" (asmReg x) (asmReg y)
  | .orReg x y => asmTwo "OR" (asmReg x) (asmReg y)
  | .andReg x y => asmTwo "AND" (asmReg x) (asmReg y)
  | .xorReg x y => asmTwo "XOR" (asmReg x) (asmReg y)
  | .addReg x y => asmTwo "ADD" (asmReg x) (asmReg y)
  | .sub x y => asmTwo "SUB" (asmReg x) (asmReg y)
  | .shr x y => asmShift "SHR" x y
  | .subn x y => asmTwo "SUBN" (asmReg x) (asmReg y)
  | .shl x y => asmShift "SHL" x y
  | .sneReg x y => asmTwo "SNE" (asmReg x) (asmReg y)
  | .ldI nnn => asmTwo "LD" "I" (asmImm12 nnn)
  | .jpV0 nnn => asmTwo "JP" "V0" (asmImm12 nnn)
  | .rnd x kk => asmTwo "RND" (asmReg x) (asmByte kk)
  | .drw x y n => asmTwo "DRW" (asmReg x) (asmReg y) ++ ", " ++ asmNibble n
  | .skp x => "SKP " ++ asmReg x
  | .sknp x => "SKNP " ++ asmReg x
  | .ldVxDt x => asmTwo "LD" (asmReg x) "DT"
  | .ldVxK x => asmTwo "LD" (asmReg x) "K"
  | .ldDtVx x => asmTwo "LD" "DT" (asmReg x)
  | .ldStVx x => asmTwo "LD" "ST" (asmReg x)
  | .addI x => asmTwo "ADD" "I" (asmReg x)
  | .ldF x => asmTwo "LD" "F" (asmReg x)
  | .ldB x => asmTwo "LD" "B" (asmReg x)
  | .ldMemVx x => asmTwo "LD" "[I]" (asmReg x)
  | .ldVxMem x => asmTwo "LD" (asmReg x) "[I]"

end Sys2Proof
end

