-- ==== Sys2Proof/Machine/System.lean ====
section
/-! DEFINITION. The whole interface (spec/10_state.md R34, R35): INIT, STEP, TICK and the host's key write as operations,
one at a time, in any order (spec/60_exceptions.md R175), and what the host reads. -/

namespace Sys2Proof.Machine

/-- What the host can do to the Machine (R34, R175, R177). Operations never overlap (R67). -/
inductive Operation where
  /-- "initialize from a program image" (R190). -/
  | init (image : List Byte)
  /-- "advance one instruction" (R100). -/
  | step
  /-- "advance time by one tick" (R174). -/
  | tick
  /-- The host writes one key (R29, R177). -/
  | writeKey (k : Nibble) (pressed : Bool)
  deriving DecidableEq, Repr

/-- One operation on a hardware of this FONT (R34). INIT makes a fresh Machine, whatever was there before (R190, D24). -/
def perform (font : Font) (op : Operation) (s : State) : StepOutcome :=
  match op with
  | .init image => init font image s.draws
  | .step => step s
  | .tick => .next s.tick
  | .writeKey k pressed => .next (s.writeKey k pressed)

/-- A schedule: the operations in this order, stopping at the first fault (R195, R175). -/
def performAll (font : Font) (ops : List Operation) (s : State) : StepOutcome :=
  match ops with
  | [] => .next s
  | op :: rest =>
    match perform font op s with
    | .next t => performAll font rest t
    | .fault f => .fault f
    | .refused r => .refused r

/-- The display read: the framebuffer as a flat row-major byte array (R178). -/
def State.display (s : State) : List Byte := (List.range Config.fbSize).map (Framebuffer.read s.fb)
/-- The sound signal, ST > 0 (R176). -/
def State.toneOn (s : State) : Bool := s.st != 0x00#8
/-- The dimensions query, width and height (R179). -/
def dimensions : Nat × Nat := (Config.viewWidth, Config.viewHeight)

end Sys2Proof.Machine
end

