-- ==== Sys2Proof/Safety.lean ====
section
/-! DEFINITION. The terms claims are stated in: what an operation leaves unchanged, the invariants of the Machine, and when
a program counts as finished. -/

namespace Sys2Proof.Machine

/-- The parts of the Machine besides the general registers and pc, as a frame names them. -/
inductive Part where
  | index
  | stack
  | delayTimer
  | soundTimer
  | keypad
  | screen
  | memory
  | randomSource
  deriving DecidableEq, Repr

/-- Every byte of memory reads the same. -/
def SameMemory (s t : State) : Prop := ∀ a : Nat, t.readByte a = s.readByte a

/-- Every framebuffer cell reads the same. -/
def SameScreen (s t : State) : Prop := ∀ k : Nat, Framebuffer.read t.fb k = Framebuffer.read s.fb k

/-- The frame: every general register but those listed (VF among them, R22) and every part but those listed is in t as it
was in s. It says nothing of pc. -/
structure UnchangedBut (regs : List Reg) (parts : List Part) (s t : State) : Prop where
  registers : ∀ r : Reg, r ∉ regs → t.reg r = s.reg r
  index : Part.index ∉ parts → t.i = s.i
  stack : Part.stack ∉ parts → t.stack = s.stack ∧ t.sp = s.sp
  delayTimer : Part.delayTimer ∉ parts → t.dt = s.dt
  soundTimer : Part.soundTimer ∉ parts → t.st = s.st
  keypad : Part.keypad ∉ parts → t.keys = s.keys
  screen : Part.screen ∉ parts → SameScreen s t
  memory : Part.memory ∉ parts → SameMemory s t
  randomSource : Part.randomSource ∉ parts → t.draws = s.draws

/-- The general registers an instruction may write (spec/10_state.md R22, R36): its destination, the range of FX65, and VF
for the six that write the flag. -/
def mayWriteReg (i : Instr) (r : Reg) : Prop :=
  match i with
  | .ldImm x _ | .addImm x _ | .ldReg x _ | .orReg x _ | .andReg x _ | .xorReg x _ | .rnd x _ | .ldVxDt x | .ldVxK x =>
    r = x
  | .addReg x _ | .sub x _ | .shr x _ | .subn x _ | .shl x _ => r = x ∨ r = 0xF#4
  | .ldVxMem x => r.toNat ≤ x.toNat
  | .drw _ _ _ => r = 0xF#4
  | .cls | .ret | .jp _ | .call _ | .seImm _ _ | .sneImm _ _ | .seReg _ _ | .sneReg _ _ | .ldI _ | .jpV0 _ | .skp _
  | .sknp _ | .ldDtVx _ | .ldStVx _ | .addI _ | .ldF _ | .ldB _ | .ldMemVx _ => False

/-- The instructions that do not simply end with `pc <- pc + 2` (spec/40_flow.md R109). -/
def transfersControl (i : Instr) : Prop :=
  match i with
  | .ret | .jp _ | .call _ | .jpV0 _ | .seImm _ _ | .sneImm _ _ | .seReg _ _ | .sneReg _ _ | .skp _ | .sknp _ | .ldVxK _ =>
    True
  | .cls | .ldImm _ _ | .addImm _ _ | .ldReg _ _ | .orReg _ _ | .andReg _ _ | .xorReg _ _ | .addReg _ _ | .sub _ _
  | .shr _ _ | .subn _ _ | .shl _ _ | .ldI _ | .rnd _ _ | .drw _ _ _ | .ldVxDt _ | .ldDtVx _ | .ldStVx _ | .addI _
  | .ldF _ | .ldB _ | .ldMemVx _ | .ldVxMem _ => False

/-- A set bit of the N-row sprite at I, drawn at (V[X], V[Y]), falls on the pixel at column `col` and row `row`: bit 7 of a
sprite byte is its leftmost pixel, and no coordinate is reduced (spec/43_display.md R140, R142, R143 (b)). -/
def SpriteCovers (s : State) (x y : Reg) (n : Nibble) (col row : Nat) : Prop :=
  (s.reg x).toNat ≤ col ∧ col < (s.reg x).toNat + 8 ∧ (s.reg y).toNat ≤ row ∧ row < (s.reg y).toNat + n.toNat ∧
    (s.readByte (s.i.toNat + (row - (s.reg y).toNat))).getLsbD (7 - (col - (s.reg x).toNat)) = true

/-- How many rows of the sprite are not clipped at the bottom edge (spec/43_display.md R142). -/
def rowsOnScreen (s : State) (y : Reg) (n : Nibble) : Nat := min n.toNat (32 - (s.reg y).toNat)

/-- Both storages are in canonical form and within their sizes (log entry 6). -/
def State.Canonical (s : State) : Prop := Memory.wf s.mem ∧ Framebuffer.wf s.fb

/-- Every framebuffer cell is 0x00 or 0xFF (spec/10_state.md R30). -/
def State.PixelsLegal (s : State) : Prop :=
  ∀ k : Nat, Framebuffer.read s.fb k = 0x00#8 ∨ Framebuffer.read s.fb k = 0xFF#8

/-- pc is at most 0x10FE and every call-stack slot at most 4094, so no pc sum ever wraps (spec/10_state.md R24,
spec/40_flow.md R104). -/
def State.PcBounded (s : State) : Prop :=
  s.pc.toNat ≤ 0x10FE ∧ ∀ (k : Nat) (h : k < 16), (s.stack[k]'h).toNat ≤ 4094

/-- The Machine's invariant. -/
structure State.Inv (s : State) : Prop where
  canonical : s.Canonical
  pixelsLegal : s.PixelsLegal
  pcBounded : s.PcBounded

/-- The program is finished in the sense of spec/70_reset_and_hazards.md R195: at pc stands a jump to pc itself. -/
def State.Terminated (s : State) : Prop :=
  ∃ nnn : Imm12, s.pc = addressOf nnn ∧ s.fetch = .opcode (encode (.jp nnn))

/-- A schedule runs safely: no operation of it faults or is refused. -/
def RunsSafely (font : Font) (ops : List Operation) (s : State) : Prop :=
  ∃ t : State, performAll font ops s = .next t

end Sys2Proof.Machine
end

