-- ==== Sys2Proof/Certificates/Slice0/Obligations.lean ====
section
/-! DEFINITION. The statements for the provers, from the numbered rules of spec/. A statement whose docstring names a decision
D<n> or a log entry rests on it: the spec marks that clause as its own choice (spec/92_eei_decisions.md), or the model made
it. -/

open Sys2Proof Sys2Proof.Machine

/-! ## INIT and reset -/

/-- INIT of an image that fits makes a Machine with every field at its reset value, FONT at 0x000, the image at 0x200 and 0x00
elsewhere, for every FONT (70_reset_and_hazards.md section 1, 10_state.md section 14; D11, D12, D17, D24 are the spec's own
choices). -/
def Obligations.InitInstallsFontAndImage : Prop :=
  ∀ (font : Font) (image : List Byte) (draws : Nat), image.length ≤ 3584 →
    ∃ t : State, init font image draws = .next t ∧
      t.pc = 0x0200#16 ∧ (∀ r : Reg, t.reg r = 0x00#8) ∧ t.i = 0x0000#16 ∧ t.sp.val = 0 ∧
      (∀ (k : Nat) (h : k < 16), t.stack[k]'h = 0x0000#16) ∧ t.dt = 0x00#8 ∧ t.st = 0x00#8 ∧
      (∀ k : Nibble, t.key k = false) ∧ (∀ k : Nat, Framebuffer.read t.fb k = 0x00#8) ∧
      (∀ (a : Nat) (h : a < 80), t.readByte a = font[a]'h) ∧
      (∀ a : Nat, 80 ≤ a → a < 0x200 → t.readByte a = 0x00#8) ∧
      (∀ (k : Nat) (h : k < image.length), t.readByte (0x200 + k) = image[k]'h) ∧
      (∀ a : Nat, 0x200 + image.length ≤ a → t.readByte a = 0x00#8)

/-- INIT raises LoadFault exactly when the image is longer than 3584 bytes, and reports its length (60_exceptions.md section 1,
70_reset_and_hazards.md section 1; that it accepts even the empty image is the spec's choice D24). That a schedule which begins
with such an INIT ends in that fault, whatever operations follow, is the model's choice (log entries 1 and 7): the spec says
only that STEP and TICK have no meaning until an INIT succeeds. -/
def Obligations.InitRefusesLargeImage : Prop :=
  ∀ (font : Font) (image : List Byte) (draws : Nat) (s : State) (rest : List Operation),
    (init font image draws = .fault (.loadFault .tooLarge image.length) ↔ 3584 < image.length) ∧
      (3584 < image.length → performAll font (.init image :: rest) s = .fault (.loadFault .tooLarge image.length))

/-- State.reset is the Machine right after INIT of the empty image with the default FONT and no random byte taken yet. The
empty image is the model's choice (log entry 5), `draws` 0 too (log entry 2), the default FONT is the spec's from general
knowledge (log entry 4, D11). -/
def Obligations.ResetIsInitOfEmptyImage : Prop :=
  init defaultFont [] 0 = .next State.reset

/-- The Machine's invariant holds at reset: both storages canonical (log entry 6), every cell 0x00 or 0xFF, pc and the slots
bounded. -/
def Obligations.ResetMeetsInvariant : Prop :=
  State.reset.Inv

/-! ## Fetch, decode, step -/

/-- The opcode is `mem[pc] ∥ mem[pc+1]`, the byte at the lower address in bits 15..8 (20_memory.md R53). -/
def Obligations.FetchIsBigEndian : Prop :=
  ∀ s : State, s.pc.toNat + 1 ≤ 4095 →
    ∃ w : Word, s.fetch = .opcode w ∧
      w.toNat = (s.readByte s.pc.toNat).toNat * 256 + (s.readByte (s.pc.toNat + 1)).toNat

/-- Where either byte of the opcode lies outside memory, STEP raises AddressFault with the lowest outside address
(20_memory.md section 7; the fault is the spec's choice D4). -/
def Obligations.FetchOutsideMemoryFaults : Prop :=
  ∀ s : State, 4095 ≤ s.pc.toNat → step s = .fault (.addressFault (max s.pc.toNat 4096))

/-- When the two bytes at pc decode to an instruction, STEP is exactly that instruction's execution: pc is written by the
instruction, not by the fetch, and nothing stands around it (40_flow.md section 1). -/
def Obligations.StepRunsDecodedInstruction : Prop :=
  ∀ (s : State) (i : Instr), s.pc.toNat + 1 ≤ 4095 →
    decode (opcodeOfBytes (s.readByte s.pc.toNat) (s.readByte (s.pc.toNat + 1))) = .instr i → step s = exec i s

/-- A fetched opcode that matches no row of the opcode map raises DecodeFault with the raw opcode (60_exceptions.md section 1,
30_encoding.md section 3; which words those are rests on the spec's choices D1 and D2). -/
def Obligations.IllegalOpcodeFaults : Prop :=
  ∀ (s : State) (w : Word), s.fetch = .opcode w → wellFormedWord w = false → step s = .fault (.decodeFault w)

/-- A few opcodes of the spec's examples, one or more of each of the sixteen families, read as the instructions they stand for
(the examples and vectors of 40_flow.md to 44_keypad_timers.md and 95_test_vectors.md; that the last three words are illegal
rests on the spec's choices D1 and D2). -/
def Obligations.DecodeReadsWorkedWords : Prop :=
  decode 0x00E0#16 = .instr .cls ∧ decode 0x00EE#16 = .instr .ret ∧ decode 0x1200#16 = .instr (.jp 0x200#12) ∧
    decode 0x2210#16 = .instr (.call 0x210#12) ∧ decode 0x332A#16 = .instr (.seImm 0x3#4 0x2A#8) ∧
    decode 0x432B#16 = .instr (.sneImm 0x3#4 0x2B#8) ∧ decode 0x5120#16 = .instr (.seReg 0x1#4 0x2#4) ∧
    decode 0x6A7F#16 = .instr (.ldImm 0xA#4 0x7F#8) ∧ decode 0x7164#16 = .instr (.addImm 0x1#4 0x64#8) ∧
    decode 0x8AB6#16 = .instr (.shr 0xA#4 0xB#4) ∧ decode 0x8127#16 = .instr (.subn 0x1#4 0x2#4) ∧
    decode 0x9120#16 = .instr (.sneReg 0x1#4 0x2#4) ∧ decode 0xA2F0#16 = .instr (.ldI 0x2F0#12) ∧
    decode 0xB300#16 = .instr (.jpV0 0x300#12) ∧ decode 0xC30F#16 = .instr (.rnd 0x3#4 0x0F#8) ∧
    decode 0xD125#16 = .instr (.drw 0x1#4 0x2#4 0x5#4) ∧ decode 0xE29E#16 = .instr (.skp 0x2#4) ∧
    decode 0xF30A#16 = .instr (.ldVxK 0x3#4) ∧ decode 0xF155#16 = .instr (.ldMemVx 0x1#4) ∧
    decode 0x01E0#16 = .illegal 0x01E0#16 ∧ decode 0x5121#16 = .illegal 0x5121#16 ∧ decode 0x0000#16 = .illegal 0x0000#16

/-- Decoding an encoded instruction gives it back, for every instruction and every value of its operands, as a word and as the
bytes memory holds (30_encoding.md section 4). Every term of Instr is well-formed: all field values are legal (R77). -/
def Obligations.DecodeOfEncode : Prop :=
  ∀ (i : Instr) (rest : List Byte),
    decode (encode i) = .instr i ∧ decodeBytes (encodeBytes i ++ rest) = .word (.instr i) rest

/-- Encoding what a legal word decodes to gives the word back (30_encoding.md section 4: `encode(decode(w)) = w`; SHR and SHL
keep Y). -/
def Obligations.EncodeOfDecode : Prop :=
  ∀ (w : Word) (i : Instr), decode w = .instr i → encode i = w

/-- The decoder's nested dispatch and the opcode map's masks agree on every one of the 65536 words: a word decodes to an
instruction whose row it matches, or matches no row and is illegal (30_encoding.md section 3; D1, D2). -/
def Obligations.DecodeAgreesWithOpcodeMap : Prop :=
  ∀ w : Word, (∀ i : Instr, decode w = .instr i → i.row ∈ opcodeRows ∧ i.row.fits w = true) ∧
    (decode w = .illegal w ↔ wellFormedWord w = false)

/-- No word matches two rows of the opcode map (30_encoding.md section 3: "the 34 patterns are pairwise disjoint"; D2). -/
def Obligations.OpcodeMapRowsDisjoint : Prop :=
  opcodeRows.length = 34 ∧
    ∀ (w : Word) (r q : OpcodeRow), r ∈ opcodeRows → q ∈ opcodeRows → r.fits w = true → q.fits w = true → r = q

/-! ## Control transfer -/

/-- 1NNN (40_flow.md R101). -/
def Obligations.JumpSetsPc : Prop :=
  ∀ (nnn : Imm12) (s : State),
    decode (wordA 0x1#4 nnn) = .instr (.jp nnn) ∧
      ∃ t : State, exec (.jp nnn) s = .next t ∧ t.pc.toNat = nnn.toNat ∧ UnchangedBut [] [] s t

/-- BNNN: always V[0], and the sum is reduced neither mod 4096 nor, as it never exceeds 0x10FE, mod 65536 (40_flow.md
R104). -/
def Obligations.JumpAddsRegisterZero : Prop :=
  ∀ (nnn : Imm12) (s : State),
    decode (wordA 0xB#4 nnn) = .instr (.jpV0 nnn) ∧
      ∃ t : State, exec (.jpV0 nnn) s = .next t ∧ t.pc.toNat = nnn.toNat + (s.reg 0x0#4).toNat ∧ t.pc.toNat ≤ 0x10FE ∧
        UnchangedBut [] [] s t

/-- 2NNN below depth 16: the address of the CALL itself is pushed (40_flow.md section 2; that depth 16 is reachable is the
spec's choice D25). -/
def Obligations.CallPushesItsAddress : Prop :=
  ∀ (nnn : Imm12) (s : State) (h : s.sp.val < 16),
    decode (wordA 0x2#4 nnn) = .instr (.call nnn) ∧
      ∃ t : State, exec (.call nnn) s = .next t ∧ t.stack[s.sp.val]'h = s.pc ∧
        (∀ (k : Nat) (hk : k < 16), k ≠ s.sp.val → t.stack[k]'hk = s.stack[k]'hk) ∧ t.sp.val = s.sp.val + 1 ∧
        t.pc.toNat = nnn.toNat ∧ UnchangedBut [] [.stack] s t

/-- 00EE with k + 1 addresses saved: pc is the top one plus 2, and the slots keep their values (40_flow.md section 2; that the
popped slot is kept is the spec's choice D18). -/
def Obligations.ReturnResumesAfterCall : Prop :=
  ∀ (s : State) (k : Nat) (hk : k < 16), s.sp.val = k + 1 →
    decode 0x00EE#16 = .instr .ret ∧
      ∃ t : State, exec .ret s = .next t ∧ t.pc = s.stack[k]'hk + 2#16 ∧ t.sp.val = k ∧ t.stack = s.stack ∧
        UnchangedBut [] [.stack] s t

/-- 2NNN at depth 16 and 00EE at depth 0 raise StackFault with the raw opcode (60_exceptions.md section 1; the policy is the
spec's choice D5). -/
def Obligations.StackBoundsFault : Prop :=
  ∀ (nnn : Imm12) (s : State),
    (s.sp.val = 16 → exec (.call nnn) s = .fault (.stackFault .overflow (wordA 0x2#4 nnn))) ∧
      (s.sp.val = 0 → exec .ret s = .fault (.stackFault .underflow 0x00EE#16))

/-- A CALL followed eventually by the matching RET restores pc to the instruction after the CALL and the depth to what it was,
whatever happened between, as long as the stack is balanced: the depth is as the CALL left it and so is the slot it wrote. The
slots above may hold anything, as nested calls leave them (D18). That a CALL which answers a next state ran below depth 16 is
StackBoundsFault (40_flow.md section 2, the source's §8 round trip, S6). -/
def Obligations.CallThenReturnRoundTrip : Prop :=
  ∀ (nnn : Imm12) (s t u : State) (h : s.sp.val < 16), exec (.call nnn) s = .next t → u.sp = t.sp →
    u.stack[s.sp.val]'h = t.stack[s.sp.val]'h →
    ∃ w : State, exec .ret u = .next w ∧ w.pc = s.pc + 2#16 ∧ w.sp = s.sp

/-- 3XKK and 4XKK: pc moves by exactly 4 where the skip is taken and by exactly 2 where not (40_flow.md R105, R106). -/
def Obligations.SkipOnImmediate : Prop :=
  ∀ (x : Reg) (kk : Byte) (s : State),
    decode (wordXK 0x3#4 x kk) = .instr (.seImm x kk) ∧ decode (wordXK 0x4#4 x kk) = .instr (.sneImm x kk) ∧
      (∃ t : State, exec (.seImm x kk) s = .next t ∧ t.pc = s.pc + (if s.reg x = kk then 4#16 else 2#16) ∧
        UnchangedBut [] [] s t) ∧
      (∃ t : State, exec (.sneImm x kk) s = .next t ∧ t.pc = s.pc + (if s.reg x = kk then 2#16 else 4#16) ∧
        UnchangedBut [] [] s t)

/-- 5XY0 and 9XY0, and that a low nibble other than 0 is illegal (40_flow.md section 3; the latter is the spec's choice D2,
conflict C12). -/
def Obligations.SkipOnRegisters : Prop :=
  ∀ (x y : Reg) (s : State),
    decode (wordXYN 0x5#4 x y 0x0#4) = .instr (.seReg x y) ∧ decode (wordXYN 0x9#4 x y 0x0#4) = .instr (.sneReg x y) ∧
      (∀ n : Nibble, n ≠ 0x0#4 →
        decode (wordXYN 0x5#4 x y n) = .illegal (wordXYN 0x5#4 x y n) ∧
          decode (wordXYN 0x9#4 x y n) = .illegal (wordXYN 0x9#4 x y n)) ∧
      (∃ t : State, exec (.seReg x y) s = .next t ∧ t.pc = s.pc + (if s.reg x = s.reg y then 4#16 else 2#16) ∧
        UnchangedBut [] [] s t) ∧
      (∃ t : State, exec (.sneReg x y) s = .next t ∧ t.pc = s.pc + (if s.reg x = s.reg y then 2#16 else 4#16) ∧
        UnchangedBut [] [] s t)

/-! ## Register load, arithmetic, logic, shift, random -/

/-- 6XKK (41_alu.md R111). -/
def Obligations.LoadImmediateWritesRegister : Prop :=
  ∀ (x : Reg) (kk : Byte) (s : State),
    decode (wordXK 0x6#4 x kk) = .instr (.ldImm x kk) ∧
      ∃ t : State, exec (.ldImm x kk) s = .next t ∧ t.reg x = kk ∧ t.pc = s.pc + 2#16 ∧ UnchangedBut [x] [] s t

/-- 7XKK: wraps mod 256, and VF is not a carry here (41_alu.md R112). -/
def Obligations.AddImmediateWrapsWithoutFlag : Prop :=
  ∀ (x : Reg) (kk : Byte) (s : State),
    decode (wordXK 0x7#4 x kk) = .instr (.addImm x kk) ∧
      ∃ t : State, exec (.addImm x kk) s = .next t ∧ (t.reg x).toNat = ((s.reg x).toNat + kk.toNat) % 256 ∧
        t.pc = s.pc + 2#16 ∧ UnchangedBut [x] [] s t

/-- 8XY0 (41_alu.md R113). -/
def Obligations.CopyRegister : Prop :=
  ∀ (x y : Reg) (s : State),
    decode (wordXYN 0x8#4 x y 0x0#4) = .instr (.ldReg x y) ∧
      ∃ t : State, exec (.ldReg x y) s = .next t ∧ t.reg x = s.reg y ∧ t.pc = s.pc + 2#16 ∧ UnchangedBut [x] [] s t

/-- 8XY1, 8XY2, 8XY3, bit by bit; VF is left as it was unless it is the destination (41_alu.md R114, R115, R116). -/
def Obligations.LogicLeavesFlagAlone : Prop :=
  ∀ (x y : Reg) (s : State),
    decode (wordXYN 0x8#4 x y 0x1#4) = .instr (.orReg x y) ∧ decode (wordXYN 0x8#4 x y 0x2#4) = .instr (.andReg x y) ∧
      decode (wordXYN 0x8#4 x y 0x3#4) = .instr (.xorReg x y) ∧
      (∃ t : State, exec (.orReg x y) s = .next t ∧
        (∀ b : Nat, (t.reg x).getLsbD b = ((s.reg x).getLsbD b || (s.reg y).getLsbD b)) ∧ t.pc = s.pc + 2#16 ∧
        UnchangedBut [x] [] s t) ∧
      (∃ t : State, exec (.andReg x y) s = .next t ∧
        (∀ b : Nat, (t.reg x).getLsbD b = ((s.reg x).getLsbD b && (s.reg y).getLsbD b)) ∧ t.pc = s.pc + 2#16 ∧
        UnchangedBut [x] [] s t) ∧
      (∃ t : State, exec (.xorReg x y) s = .next t ∧
        (∀ b : Nat, (t.reg x).getLsbD b = ((s.reg x).getLsbD b ^^ (s.reg y).getLsbD b)) ∧ t.pc = s.pc + 2#16 ∧
        UnchangedBut [x] [] s t)

/-- 8XY4: the sum mod 256, and VF 1 exactly when it exceeds 255; at X = 0xF the flag is what remains (41_alu.md section 4; the
order of the two writes is the spec's choice D3). -/
def Obligations.AddSetsCarry : Prop :=
  ∀ (x y : Reg) (s : State),
    decode (wordXYN 0x8#4 x y 0x4#4) = .instr (.addReg x y) ∧
      ∃ t : State, exec (.addReg x y) s = .next t ∧
        (x ≠ 0xF#4 → (t.reg x).toNat = ((s.reg x).toNat + (s.reg y).toNat) % 256) ∧
        t.reg 0xF#4 = (if (s.reg x).toNat + (s.reg y).toNat > 255 then 1#8 else 0#8) ∧ t.pc = s.pc + 2#16 ∧
        UnchangedBut [x, 0xF#4] [] s t

/-- 8XY5 and 8XY7: the difference mod 256, and VF 1 exactly when nothing is borrowed, judged on the operands before the
instruction, equality included (41_alu.md section 4, conflict C4; D3). -/
def Obligations.SubtractSetsNoBorrow : Prop :=
  ∀ (x y : Reg) (s : State),
    decode (wordXYN 0x8#4 x y 0x5#4) = .instr (.sub x y) ∧ decode (wordXYN 0x8#4 x y 0x7#4) = .instr (.subn x y) ∧
      (∃ t : State, exec (.sub x y) s = .next t ∧
        (x ≠ 0xF#4 → (t.reg x).toNat = ((s.reg x).toNat + 256 - (s.reg y).toNat) % 256) ∧
        t.reg 0xF#4 = (if (s.reg x).toNat ≥ (s.reg y).toNat then 1#8 else 0#8) ∧ t.pc = s.pc + 2#16 ∧
        UnchangedBut [x, 0xF#4] [] s t) ∧
      (∃ t : State, exec (.subn x y) s = .next t ∧
        (x ≠ 0xF#4 → (t.reg x).toNat = ((s.reg y).toNat + 256 - (s.reg x).toNat) % 256) ∧
        t.reg 0xF#4 = (if (s.reg y).toNat ≥ (s.reg x).toNat then 1#8 else 0#8) ∧ t.pc = s.pc + 2#16 ∧
        UnchangedBut [x, 0xF#4] [] s t)

/-- 8XY6 and 8XYE: V[X] shifted by one, VF the bit shifted out; Y, whatever it is, plays no part (41_alu.md section 4;
D3). -/
def Obligations.ShiftSetsBitOut : Prop :=
  ∀ (x y : Reg) (s : State),
    decode (wordXYN 0x8#4 x y 0x6#4) = .instr (.shr x y) ∧ decode (wordXYN 0x8#4 x y 0xE#4) = .instr (.shl x y) ∧
      (∃ t : State, exec (.shr x y) s = .next t ∧ (x ≠ 0xF#4 → (t.reg x).toNat = (s.reg x).toNat / 2) ∧
        (t.reg 0xF#4).toNat = (s.reg x).toNat % 2 ∧ t.pc = s.pc + 2#16 ∧ UnchangedBut [x, 0xF#4] [] s t) ∧
      (∃ t : State, exec (.shl x y) s = .next t ∧ (x ≠ 0xF#4 → (t.reg x).toNat = (s.reg x).toNat * 2 % 256) ∧
        (t.reg 0xF#4).toNat = (s.reg x).toNat / 128 ∧ t.pc = s.pc + 2#16 ∧ UnchangedBut [x, 0xF#4] [] s t)

/-- CXKK: the next byte of the random source, whatever it is (log entry 2, D8), under the mask; the next CXKK takes the byte
after it; a bit that KK clears is 0 (41_alu.md section 6). -/
def Obligations.RandomByteUnderMask : Prop :=
  ∀ (x : Reg) (kk : Byte) (s : State),
    decode (wordXK 0xC#4 x kk) = .instr (.rnd x kk) ∧
      ∃ t : State, exec (.rnd x kk) s = .next t ∧ t.reg x = Config.rnd s.draws &&& kk ∧ t.draws = s.draws + 1 ∧
        (∀ b : Nat, kk.getLsbD b = false → (t.reg x).getLsbD b = false) ∧ t.pc = s.pc + 2#16 ∧
        UnchangedBut [x] [.randomSource] s t

/-! ## Address register and memory transfers -/

/-- ANNN (42_index_memory.md R131). -/
def Obligations.LoadIndexImmediate : Prop :=
  ∀ (nnn : Imm12) (s : State),
    decode (wordA 0xA#4 nnn) = .instr (.ldI nnn) ∧
      ∃ t : State, exec (.ldI nnn) s = .next t ∧ t.i.toNat = nnn.toNat ∧ t.pc = s.pc + 2#16 ∧ UnchangedBut [] [.index] s t

/-- FX1E: a 16-bit sum; VF is never written (42_index_memory.md R132). -/
def Obligations.AddToIndexWithoutFlag : Prop :=
  ∀ (x : Reg) (s : State),
    decode (wordXK 0xF#4 x 0x1E#8) = .instr (.addI x) ∧
      ∃ t : State, exec (.addI x) s = .next t ∧ t.i.toNat = (s.i.toNat + (s.reg x).toNat) % 65536 ∧
        t.pc = s.pc + 2#16 ∧ UnchangedBut [] [.index] s t

/-- FX29: the whole byte times 5, no masking (42_index_memory.md R133). -/
def Obligations.FontGlyphAddress : Prop :=
  ∀ (x : Reg) (s : State),
    decode (wordXK 0xF#4 x 0x29#8) = .instr (.ldF x) ∧
      ∃ t : State, exec (.ldF x) s = .next t ∧ t.i.toNat = (s.reg x).toNat * 5 ∧ t.pc = s.pc + 2#16 ∧
        UnchangedBut [] [.index] s t

/-- FX33 with its three bytes in memory: the digits, most significant first, and every other byte as before; I is unchanged
(42_index_memory.md section 3; where the bytes are not in memory the fault is D4, stated apart). -/
def Obligations.StoreDecimalDigits : Prop :=
  ∀ (x : Reg) (s : State), s.i.toNat + 2 ≤ 4095 →
    decode (wordXK 0xF#4 x 0x33#8) = .instr (.ldB x) ∧
      ∃ t : State, exec (.ldB x) s = .next t ∧
        (t.readByte s.i.toNat).toNat = (s.reg x).toNat / 100 ∧
        (t.readByte (s.i.toNat + 1)).toNat = (s.reg x).toNat / 10 % 10 ∧
        (t.readByte (s.i.toNat + 2)).toNat = (s.reg x).toNat % 10 ∧
        (∀ a : Nat, a < s.i.toNat ∨ s.i.toNat + 2 < a → t.readByte a = s.readByte a) ∧ t.pc = s.pc + 2#16 ∧
        UnchangedBut [] [.memory] s t

/-- FX55 with its X + 1 bytes in memory: V[k] at I + k, every other byte as before; I is unchanged (42_index_memory.md section
3; the fault elsewhere is D4, stated apart). -/
def Obligations.StoreRegisterRange : Prop :=
  ∀ (x : Reg) (s : State), s.i.toNat + x.toNat ≤ 4095 →
    decode (wordXK 0xF#4 x 0x55#8) = .instr (.ldMemVx x) ∧
      ∃ t : State, exec (.ldMemVx x) s = .next t ∧
        (∀ r : Reg, r.toNat ≤ x.toNat → t.readByte (s.i.toNat + r.toNat) = s.reg r) ∧
        (∀ a : Nat, a < s.i.toNat ∨ s.i.toNat + x.toNat < a → t.readByte a = s.readByte a) ∧ t.pc = s.pc + 2#16 ∧
        UnchangedBut [] [.memory] s t

/-- FX65 with its X + 1 bytes in memory: V[k] from I + k for k up to X, the registers above X and memory as before; I is
unchanged (42_index_memory.md section 3; the fault elsewhere is D4, stated apart). -/
def Obligations.LoadRegisterRange : Prop :=
  ∀ (x : Reg) (s : State), s.i.toNat + x.toNat ≤ 4095 →
    decode (wordXK 0xF#4 x 0x65#8) = .instr (.ldVxMem x) ∧
      ∃ t : State, exec (.ldVxMem x) s = .next t ∧
        (∀ r : Reg, r.toNat ≤ x.toNat → t.reg r = s.readByte (s.i.toNat + r.toNat)) ∧
        (∀ r : Reg, x.toNat < r.toNat → t.reg r = s.reg r) ∧ t.pc = s.pc + 2#16 ∧
        UnchangedBut ((List.range (x.toNat + 1)).map (BitVec.ofNat 4)) [] s t

/-- FX33, FX55, FX65 and DXYN with a byte they would access at 4096 or above raise AddressFault with the lowest such address; a
clipped sprite row is not accessed (42_index_memory.md section 1, 43_display.md section 3; D4, D20). -/
def Obligations.TransferOutsideMemoryFaults : Prop :=
  ∀ (x y : Reg) (n : Nibble) (s : State),
    (4095 < s.i.toNat + 2 → exec (.ldB x) s = .fault (.addressFault (max s.i.toNat 4096))) ∧
      (4095 < s.i.toNat + x.toNat →
        exec (.ldMemVx x) s = .fault (.addressFault (max s.i.toNat 4096)) ∧
          exec (.ldVxMem x) s = .fault (.addressFault (max s.i.toNat 4096))) ∧
      (0 < rowsOnScreen s y n → 4096 < s.i.toNat + rowsOnScreen s y n →
        exec (.drw x y n) s = .fault (.addressFault (max s.i.toNat 4096)))

/-- A byte stored by FX55 or FX33 is what a later fetch of its address reads, with nothing in between: in a state u whose two
bytes at pc are still as the store left them, the opcode's high byte is the stored byte where pc is a stored address, and its
low byte is the stored byte where pc + 1 is. A fetch that overlaps the store in one byte only is covered too (20_memory.md
section 8). -/
def Obligations.StoreIsSeenByNextFetch : Prop :=
  ∀ (x : Reg) (s t u : State), u.pc.toNat + 1 ≤ 4095 → u.readByte u.pc.toNat = t.readByte u.pc.toNat →
    u.readByte (u.pc.toNat + 1) = t.readByte (u.pc.toNat + 1) →
    (exec (.ldMemVx x) s = .next t →
      ∃ w : Word, u.fetch = .opcode w ∧
        (∀ r : Reg, r.toNat ≤ x.toNat → u.pc.toNat = s.i.toNat + r.toNat → highByte w = s.reg r) ∧
        (∀ r : Reg, r.toNat ≤ x.toNat → u.pc.toNat + 1 = s.i.toNat + r.toNat → lowByte w = s.reg r)) ∧
      (exec (.ldB x) s = .next t →
        ∃ w : Word, u.fetch = .opcode w ∧
          (∀ j : Nat, j ≤ 2 → u.pc.toNat = s.i.toNat + j → (highByte w).toNat = (s.reg x).toNat / 10 ^ (2 - j) % 10) ∧
          (∀ j : Nat, j ≤ 2 → u.pc.toNat + 1 = s.i.toNat + j → (lowByte w).toNat = (s.reg x).toNat / 10 ^ (2 - j) % 10))

/-! ## Display -/

/-- 00E0: every cell 0x00, VF not written (43_display.md R141). -/
def Obligations.ClearScreenTurnsAllOff : Prop :=
  ∀ s : State,
    decode 0x00E0#16 = .instr .cls ∧
      ∃ t : State, exec .cls s = .next t ∧ (∀ k : Nat, Framebuffer.read t.fb k = 0x00#8) ∧ t.pc = s.pc + 2#16 ∧
        UnchangedBut [] [.screen] s t

/-- DXYN where the rows on the screen lie in memory: the pixels under set sprite bits are inverted and no others, without
wrapping; VF is 1 exactly when one of them was on; at X or Y = 0xF the old VF is the coordinate (43_display.md section 3; the
spec's choices D3, D9, D10 and D20 enter). -/
def Obligations.DrawInvertsCoveredPixels : Prop :=
  ∀ (x y : Reg) (n : Nibble) (s : State), rowsOnScreen s y n = 0 ∨ s.i.toNat + rowsOnScreen s y n ≤ 4096 →
    decode (wordXYN 0xD#4 x y n) = .instr (.drw x y n) ∧
      ∃ t : State, exec (.drw x y n) s = .next t ∧
        (∀ col row : Nat, col < 64 → row < 32 → SpriteCovers s x y n col row →
          t.pixel col row = s.pixel col row ^^^ 0xFF#8) ∧
        (∀ col row : Nat, col < 64 → row < 32 → ¬ SpriteCovers s x y n col row → t.pixel col row = s.pixel col row) ∧
        (∀ k : Nat, 2048 ≤ k → Framebuffer.read t.fb k = Framebuffer.read s.fb k) ∧
        ((∃ col row : Nat, col < 64 ∧ row < 32 ∧ SpriteCovers s x y n col row ∧ s.pixel col row = 0xFF#8) →
          t.reg 0xF#4 = 1#8) ∧
        ((¬ ∃ col row : Nat, col < 64 ∧ row < 32 ∧ SpriteCovers s x y n col row ∧ s.pixel col row = 0xFF#8) →
          t.reg 0xF#4 = 0#8) ∧
        t.pc = s.pc + 2#16 ∧ UnchangedBut [0xF#4] [.screen] s t

/-- On a blank screen, with X and Y other than 0xF, a sprite drawn twice leaves the screen blank; the first draw leaves VF 0,
the second leaves VF 1 exactly when some set sprite bit falls on the screen (43_display.md section 3, properties (d); which
pixels those bits fall on rests on the spec's choices D9 and D10). -/
def Obligations.DrawTwiceRestoresBlankScreen : Prop :=
  ∀ (x y : Reg) (n : Nibble) (s t u : State), x ≠ 0xF#4 → y ≠ 0xF#4 → (∀ k : Nat, Framebuffer.read s.fb k = 0x00#8) →
    exec (.drw x y n) s = .next t → exec (.drw x y n) t = .next u →
    t.reg 0xF#4 = 0#8 ∧ (∀ k : Nat, Framebuffer.read u.fb k = 0x00#8) ∧
      (u.reg 0xF#4 = 1#8 ↔ ∃ col row : Nat, col < 64 ∧ row < 32 ∧ SpriteCovers s x y n col row) ∧
      (u.reg 0xF#4 = 0#8 ↔ ¬ ∃ col row : Nat, col < 64 ∧ row < 32 ∧ SpriteCovers s x y n col row)

/-! ## Keypad and timers -/

/-- EX9E and EXA1 with V[X] at most 15: the level of that key decides (44_keypad_timers.md section 2; the fault above 15 is D6,
stated apart). -/
def Obligations.KeySkips : Prop :=
  ∀ (x : Reg) (k : Nibble) (s : State), (s.reg x).toNat = k.toNat →
    decode (wordXK 0xE#4 x 0x9E#8) = .instr (.skp x) ∧ decode (wordXK 0xE#4 x 0xA1#8) = .instr (.sknp x) ∧
      (∃ t : State, exec (.skp x) s = .next t ∧ t.pc = s.pc + (if s.key k = true then 4#16 else 2#16) ∧
        UnchangedBut [] [] s t) ∧
      (∃ t : State, exec (.sknp x) s = .next t ∧ t.pc = s.pc + (if s.key k = true then 2#16 else 4#16) ∧
        UnchangedBut [] [] s t)

/-- EX9E and EXA1 with V[X] above 15 raise KeyIndexFault with it (44_keypad_timers.md section 1; the spec's choice D6). -/
def Obligations.KeyIndexAboveFifteenFaults : Prop :=
  ∀ (x : Reg) (s : State), 15 < (s.reg x).toNat →
    exec (.skp x) s = .fault (.keyIndexFault (s.reg x)) ∧ exec (.sknp x) s = .fault (.keyIndexFault (s.reg x))

/-- FX0A with k the least pressed key: V[X] is its index (44_keypad_timers.md section 3; taking the least is the spec's choice
D7). -/
def Obligations.WaitKeyTakesLeastPressed : Prop :=
  ∀ (x : Reg) (k : Nibble) (s : State), s.key k = true → (∀ j : Nibble, j.toNat < k.toNat → s.key j = false) →
    decode (wordXK 0xF#4 x 0x0A#8) = .instr (.ldVxK x) ∧
      ∃ t : State, exec (.ldVxK x) s = .next t ∧ (t.reg x).toNat = k.toNat ∧ t.pc = s.pc + 2#16 ∧ UnchangedBut [x] [] s t

/-- FX0A with no key pressed is done and changes nothing, pc included (44_keypad_timers.md section 3). -/
def Obligations.WaitKeyPolls : Prop :=
  ∀ (x : Reg) (s : State), (∀ k : Nibble, s.key k = false) → exec (.ldVxK x) s = .next s

/-- FX07, FX15, FX18 move a whole byte between V[X] and a timer (44_keypad_timers.md R154, R155, R156). -/
def Obligations.TimerMoves : Prop :=
  ∀ (x : Reg) (s : State),
    decode (wordXK 0xF#4 x 0x07#8) = .instr (.ldVxDt x) ∧ decode (wordXK 0xF#4 x 0x15#8) = .instr (.ldDtVx x) ∧
      decode (wordXK 0xF#4 x 0x18#8) = .instr (.ldStVx x) ∧
      (∃ t : State, exec (.ldVxDt x) s = .next t ∧ t.reg x = s.dt ∧ t.pc = s.pc + 2#16 ∧ UnchangedBut [x] [] s t) ∧
      (∃ t : State, exec (.ldDtVx x) s = .next t ∧ t.dt = s.reg x ∧ t.pc = s.pc + 2#16 ∧
        UnchangedBut [] [.delayTimer] s t) ∧
      (∃ t : State, exec (.ldStVx x) s = .next t ∧ t.st = s.reg x ∧ t.pc = s.pc + 2#16 ∧ UnchangedBut [] [.soundTimer] s t)

/-- TICK: each timer one less, floored at 0, and nothing else, pc included; it cannot fail (60_exceptions.md R174). -/
def Obligations.TickCountsDownToZero : Prop :=
  ∀ (font : Font) (s : State),
    ∃ t : State, perform font .tick s = .next t ∧ t.dt.toNat = s.dt.toNat - 1 ∧ t.st.toNat = s.st.toNat - 1 ∧
      t.pc = s.pc ∧ UnchangedBut [] [.delayTimer, .soundTimer] s t

/-- The host's write of one key: that key has the value written and nothing else changes (60_exceptions.md section 5; D23). -/
def Obligations.HostWritesOneKey : Prop :=
  ∀ (font : Font) (k : Nibble) (pressed : Bool) (s : State),
    ∃ t : State, perform font (.writeKey k pressed) s = .next t ∧ t.key k = pressed ∧
      (∀ j : Nibble, j ≠ k → t.key j = s.key j) ∧ t.pc = s.pc ∧ UnchangedBut [] [.keypad] s t

/-! ## Promises about every instruction -/

/-- No instruction changes the keypad, none but FX15 changes DT, none but FX18 changes ST (40_flow.md section 1, property
(d)). -/
def Obligations.OnlyTimerWritesChangeTimers : Prop :=
  ∀ (i : Instr) (s t : State), exec i s = .next t →
    t.keys = s.keys ∧ ((∀ x : Reg, i ≠ .ldDtVx x) → t.dt = s.dt) ∧ ((∀ x : Reg, i ≠ .ldStVx x) → t.st = s.st)

/-- No instruction but FX33 and FX55 changes a byte of memory (10_state.md section 13). -/
def Obligations.OnlyStoresChangeMemory : Prop :=
  ∀ (i : Instr) (s t : State), exec i s = .next t → (∀ x : Reg, i ≠ .ldB x) → (∀ x : Reg, i ≠ .ldMemVx x) → SameMemory s t

/-- No instruction but 00E0 and DXYN changes a framebuffer cell (10_state.md section 8). -/
def Obligations.OnlyClearAndDrawChangeScreen : Prop :=
  ∀ (i : Instr) (s t : State), exec i s = .next t → i ≠ .cls → (∀ (x y : Reg) (n : Nibble), i ≠ .drw x y n) →
    SameScreen s t

/-- No instruction but 2NNN and 00EE touches the call stack, and none but ANNN, FX1E and FX29 changes I (10_state.md sections
4 and 5). -/
def Obligations.StackAndIndexHaveFewWriters : Prop :=
  ∀ (i : Instr) (s t : State), exec i s = .next t →
    ((∀ nnn : Imm12, i ≠ .call nnn) → i ≠ .ret → t.stack = s.stack ∧ t.sp = s.sp) ∧
      ((∀ nnn : Imm12, i ≠ .ldI nnn) → (∀ x : Reg, i ≠ .addI x) → (∀ x : Reg, i ≠ .ldF x) → t.i = s.i)

/-- A general register that the instruction does not name as a destination, VF among them, keeps its value unless it is VF and
the instruction one of the six flag writers (10_state.md sections 2 and 13). -/
def Obligations.RegistersChangeOnlyAsNamed : Prop :=
  ∀ (i : Instr) (s t : State) (r : Reg), exec i s = .next t → ¬ mayWriteReg i r → t.reg r = s.reg r

/-- Every instruction that transfers no control moves pc by exactly 2 (40_flow.md section 4). -/
def Obligations.OtherInstructionsMoveToNext : Prop :=
  ∀ (i : Instr) (s t : State), exec i s = .next t → ¬ transfersControl i → t.pc = s.pc + 2#16

/-- Which instruction can raise which fault, when, and with which value; no instruction is refused (60_exceptions.md sections 1
and 2; the conditions are the spec's choices D4, D5, D6). -/
def Obligations.OnlyTheNamedInstructionsFault : Prop :=
  ∀ (i : Instr) (s : State), (∀ r : Refusal, exec i s ≠ .refused r) ∧
    ∀ f : Fault, exec i s = .fault f →
      (∃ nnn : Imm12, i = .call nnn ∧ s.sp.val = 16 ∧ f = .stackFault .overflow (encode i)) ∨
      (i = .ret ∧ s.sp.val = 0 ∧ f = .stackFault .underflow 0x00EE#16) ∨
      (∃ x : Reg, (i = .skp x ∨ i = .sknp x) ∧ 15 < (s.reg x).toNat ∧ f = .keyIndexFault (s.reg x)) ∨
      (∃ x : Reg, i = .ldB x ∧ 4095 < s.i.toNat + 2 ∧ f = .addressFault (max s.i.toNat 4096)) ∨
      (∃ x : Reg, (i = .ldMemVx x ∨ i = .ldVxMem x) ∧ 4095 < s.i.toNat + x.toNat ∧
        f = .addressFault (max s.i.toNat 4096)) ∨
      (∃ (x y : Reg) (n : Nibble), i = .drw x y n ∧ 0 < rowsOnScreen s y n ∧ 4096 < s.i.toNat + rowsOnScreen s y n ∧
        f = .addressFault (max s.i.toNat 4096))

/-- A fault of STEP does not depend on the keypad or on the random source: with any keys and any draws the same fault is raised
(60_exceptions.md section 2). -/
def Obligations.FaultIgnoresKeysAndRandomSource : Prop :=
  ∀ (s : State) (keys : Vector Bool 16) (draws : Nat) (f : Fault), step s = .fault f →
    step { s with keys := keys, draws := draws } = .fault f

/-- A program that has reached a jump to its own address is a fixed point of STEP (70_reset_and_hazards.md section 3; the
definition of finished is the spec's convenience D26). -/
def Obligations.SelfJumpIsFixedPoint : Prop :=
  ∀ s : State, s.Terminated → step s = .next s

/-! ## Invariants -/

/-- STEP keeps memory and framebuffer in canonical form and within their sizes, so no instruction writes outside the 4096
bytes or the 2048 cells (20_memory.md section 6, 43_display.md property (e); the canonical form is the model's, log entry
6). -/
def Obligations.StepKeepsCanonicalForm : Prop :=
  ∀ s t : State, s.Canonical → step s = .next t → t.Canonical

/-- STEP keeps every framebuffer cell 0x00 or 0xFF (10_state.md section 8). -/
def Obligations.StepKeepsPixelsLegal : Prop :=
  ∀ s t : State, s.PixelsLegal → step s = .next t → t.PixelsLegal

/-- STEP keeps pc at most 0x10FE and every call-stack slot at most 4094, so no pc sum ever wraps (10_state.md section 3). -/
def Obligations.StepKeepsPcBounded : Prop :=
  ∀ s t : State, s.PcBounded → step s = .next t → t.PcBounded

/-- Every schedule of INIT, STEP, TICK and key writes that does not fault keeps the Machine's invariant, on a hardware of any
FONT: every framebuffer cell 0x00 or 0xFF (10_state.md section 8, 43_display.md section 3), pc and the call-stack slots bounded
(10_state.md section 3), no byte outside the storages (20_memory.md section 6), INIT (70_reset_and_hazards.md section 1)
included. The canonical form of the two storages is the model's choice (log entry 6); so is the form of a schedule, a list of
operations in any order that ends at its first fault (log entries 1 and 7; the free order is the spec's choice D16). -/
def Obligations.EveryScheduleKeepsInvariant : Prop :=
  ∀ (font : Font) (ops : List Operation) (s t : State), s.Inv → performAll font ops s = .next t → t.Inv
end

