-- ==== Sys2Proof/Laws/Decode.lean ====
section
/-! SUPPORT. The fields of a word of each format (spec/30_encoding.md R72), and of a word's two bytes. -/

namespace Sys2Proof

section formats

variable (op x y n : Nibble) (kk : Byte) (nnn : Imm12)

@[simp] theorem opField_wordA : opField (wordA op nnn) = op := by
  ext j hj
  simp only [opField, wordA, BitVec.getElem_extractLsb', BitVec.getLsbD_cast, BitVec.getLsbD_append]
  simp [hj, BitVec.getLsbD_eq_getElem]
@[simp] theorem nnnField_wordA : nnnField (wordA op nnn) = nnn := by
  ext j hj
  simp only [nnnField, wordA, BitVec.getElem_extractLsb', BitVec.getLsbD_cast, BitVec.getLsbD_append]
  rw [Nat.zero_add, if_pos hj, BitVec.getLsbD_eq_getElem]
@[simp] theorem opField_wordXK : opField (wordXK op x kk) = op := by
  ext j hj
  simp only [opField, wordXK, BitVec.getElem_extractLsb', BitVec.getLsbD_cast, BitVec.getLsbD_append]
  rw [if_neg (by omega), if_neg (by omega), BitVec.getLsbD_eq_getElem (by omega)]
  congr 1; omega
@[simp] theorem xField_wordXK : xField (wordXK op x kk) = x := by
  ext j hj
  simp only [xField, wordXK, BitVec.getElem_extractLsb', BitVec.getLsbD_cast, BitVec.getLsbD_append]
  simp [hj, BitVec.getLsbD_eq_getElem]
@[simp] theorem kkField_wordXK : kkField (wordXK op x kk) = kk := by
  ext j hj
  simp only [kkField, wordXK, BitVec.getElem_extractLsb', BitVec.getLsbD_cast, BitVec.getLsbD_append]
  rw [Nat.zero_add, if_pos hj, BitVec.getLsbD_eq_getElem]
@[simp] theorem opField_wordXYN : opField (wordXYN op x y n) = op := by
  ext j hj
  simp only [opField, wordXYN, BitVec.getElem_extractLsb', BitVec.getLsbD_cast, BitVec.getLsbD_append]
  rw [if_neg (by omega), if_neg (by omega), if_neg (by omega), BitVec.getLsbD_eq_getElem (by omega)]
  congr 1; omega
@[simp] theorem xField_wordXYN : xField (wordXYN op x y n) = x := by
  ext j hj
  simp only [xField, wordXYN, BitVec.getElem_extractLsb', BitVec.getLsbD_cast, BitVec.getLsbD_append]
  rw [if_neg (by omega), if_neg (by omega), if_pos (by omega), BitVec.getLsbD_eq_getElem (by omega)]
  congr 1; omega
@[simp] theorem yField_wordXYN : yField (wordXYN op x y n) = y := by
  ext j hj
  simp only [yField, wordXYN, BitVec.getElem_extractLsb', BitVec.getLsbD_cast, BitVec.getLsbD_append]
  simp [hj, BitVec.getLsbD_eq_getElem]
@[simp] theorem nField_wordXYN : nField (wordXYN op x y n) = n := by
  ext j hj
  simp only [nField, wordXYN, BitVec.getElem_extractLsb', BitVec.getLsbD_cast, BitVec.getLsbD_append]
  rw [Nat.zero_add, if_pos hj, BitVec.getLsbD_eq_getElem]

end formats

/-- A word is its family and NNN put together. -/
theorem wordA_fields (w : Word) : wordA (opField w) (nnnField w) = w := by
  ext j hj
  simp only [opField, nnnField, wordA, BitVec.getElem_cast, BitVec.getElem_append, BitVec.getElem_extractLsb']
  split
  · rw [Nat.zero_add, BitVec.getLsbD_eq_getElem]
  · rw [BitVec.getLsbD_eq_getElem (by omega)]; congr 1; omega

/-- A word is its family, X and KK put together. -/
theorem wordXK_fields (w : Word) : wordXK (opField w) (xField w) (kkField w) = w := by
  ext j hj
  simp only [opField, xField, kkField, wordXK, BitVec.getElem_cast, BitVec.getElem_append, BitVec.getElem_extractLsb']
  split
  · rw [Nat.zero_add, BitVec.getLsbD_eq_getElem]
  · split <;> (rw [BitVec.getLsbD_eq_getElem (by omega)]; congr 1; omega)

/-- A word is its family, X, Y and N put together. -/
theorem wordXYN_fields (w : Word) : wordXYN (opField w) (xField w) (yField w) (nField w) = w := by
  ext j hj
  simp only [opField, xField, yField, nField, wordXYN, BitVec.getElem_cast, BitVec.getElem_append,
    BitVec.getElem_extractLsb']
  split
  · rw [Nat.zero_add, BitVec.getLsbD_eq_getElem]
  · split
    · rw [BitVec.getLsbD_eq_getElem (by omega)]; congr 1; omega
    · split <;> (rw [BitVec.getLsbD_eq_getElem (by omega)]; congr 1; omega)

/-- A word is its high byte and its low byte, in the order memory holds them. -/
@[simp] theorem opcodeOfBytes_bytes (w : Word) : opcodeOfBytes (highByte w) (lowByte w) = w := by
  ext j hj
  simp only [opcodeOfBytes, highByte, lowByte, BitVec.getElem_cast, BitVec.getElem_append, BitVec.getElem_extractLsb']
  split
  · rw [Nat.zero_add, BitVec.getLsbD_eq_getElem]
  · rw [BitVec.getLsbD_eq_getElem (by omega)]; congr 1; omega

/-- The high byte of an opcode put together from two bytes. -/
@[simp] theorem highByte_opcodeOfBytes (high low : Byte) : highByte (opcodeOfBytes high low) = high := by
  ext j hj
  simp only [opcodeOfBytes, highByte, BitVec.getElem_extractLsb', BitVec.getLsbD_cast, BitVec.getLsbD_append]
  simp [hj, BitVec.getLsbD_eq_getElem]

/-- The low byte of an opcode put together from two bytes. -/
@[simp] theorem lowByte_opcodeOfBytes (high low : Byte) : lowByte (opcodeOfBytes high low) = low := by
  ext j hj
  simp only [opcodeOfBytes, lowByte, BitVec.getElem_extractLsb', BitVec.getLsbD_cast, BitVec.getLsbD_append]
  rw [Nat.zero_add, if_pos hj, BitVec.getLsbD_eq_getElem]

theorem opcodeOfBytes_toNat (high low : Byte) : (opcodeOfBytes high low).toNat = high.toNat * 256 + low.toNat := by
  simp only [opcodeOfBytes, BitVec.toNat_cast, BitVec.toNat_append]
  rw [Nat.shiftLeft_eq, Nat.mul_comm, ← Nat.two_pow_add_eq_or_of_lt low.isLt, Nat.mul_comm]

end Sys2Proof
end

