-- ==== Sys2Proof/Laws/Memory.lean ====
section
/-! SUPPORT. The laws of a byte storage: a read after a write, and that writing keeps the canonical form. -/

namespace Sys2Proof.Machine

theorem Cells.read_erase_other (u : Nat → Byte) (l : List Host.Cell) {a b : Nat} (h : b ≠ a) :
    Cells.read u (Cells.erase l a) b = Cells.read u l b := by
  induction l with
  | nil => rfl
  | cons c rest ih =>
    unfold Cells.erase at ih ⊢
    by_cases hc : c.1 = a
    · have hb : c.1 ≠ b := fun e => h (e.symm.trans hc)
      simp [hc, Cells.read, ih, Ne.symm h]
    · simp [hc, Cells.read, ih]

theorem Cells.read_erase_same (u : Nat → Byte) (l : List Host.Cell) (a : Nat) :
    Cells.read u (Cells.erase l a) a = u a := by
  induction l with
  | nil => rfl
  | cons c rest ih =>
    unfold Cells.erase at ih ⊢
    by_cases hc : c.1 = a <;> simp [hc, Cells.read, ih]

theorem Cells.read_insert_other (u : Nat → Byte) (l : List Host.Cell) {a b : Nat} (v : Byte) (h : b ≠ a) :
    Cells.read u (Cells.insert l a v) b = Cells.read u l b := by
  induction l with
  | nil => simp [Cells.insert, Cells.read, Ne.symm h]
  | cons c rest ih =>
    unfold Cells.insert
    split <;> simp [Cells.read, ih, Ne.symm h]

theorem Cells.read_insert_same (u : Nat → Byte) (l : List Host.Cell) (a : Nat) (v : Byte) (h : ∀ c ∈ l, c.1 ≠ a) :
    Cells.read u (Cells.insert l a v) a = v := by
  induction l with
  | nil => simp [Cells.insert, Cells.read]
  | cons c rest ih =>
    have hc := h c (by simp)
    have hr := ih (fun d hd => h d (by simp [hd]))
    unfold Cells.insert
    split <;> simp [Cells.read, hr, hc]

theorem Cells.erase_ne (l : List Host.Cell) (a : Nat) : ∀ c ∈ Cells.erase l a, c.1 ≠ a := by
  intro c hc
  simpa [Cells.erase] using (List.mem_filter.mp hc).2

/-- A read after a write, for any list of cells. -/
theorem Cells.read_write (u : Nat → Byte) (l : List Host.Cell) (a b : Nat) (v : Byte) :
    Cells.read u (Cells.write u l a v) b = if b = a then v else Cells.read u l b := by
  unfold Cells.write
  by_cases hb : b = a
  · subst hb
    split
    · rename_i hv; simp [Cells.read_erase_same, hv]
    · simp [Cells.read_insert_same u _ b v (Cells.erase_ne l b)]
  · split
    · rw [Cells.read_erase_other u l hb]
    · rw [Cells.read_insert_other u _ v hb, Cells.read_erase_other u l hb]

theorem Cells.wf_erase {u : Nat → Byte} {size : Nat} {l : List Host.Cell} (h : Cells.wf u size l) (a : Nat) :
    Cells.wf u size (Cells.erase l a) :=
  ⟨h.1.sublist List.filter_sublist, fun c hc => h.2 c (List.mem_filter.mp hc).1⟩

theorem Cells.mem_insert {l : List Host.Cell} {a : Nat} {v : Byte} {c : Host.Cell} :
    c ∈ Cells.insert l a v ↔ c = (a, v) ∨ c ∈ l := by
  induction l with
  | nil => simp [Cells.insert]
  | cons d rest ih =>
    unfold Cells.insert
    split
    · simp
    · simp only [List.mem_cons, ih]; tauto

theorem Cells.wf_insert {u : Nat → Byte} {size : Nat} {l : List Host.Cell} (h : Cells.wf u size l) {a : Nat} {v : Byte}
    (ha : a < size) (hv : v ≠ u a) (hne : ∀ c ∈ l, c.1 ≠ a) : Cells.wf u size (Cells.insert l a v) := by
  refine ⟨?_, fun c hc => ?_⟩
  · induction l with
    | nil => simp [Cells.insert]
    | cons d rest ih =>
      have hp := List.pairwise_cons.mp h.1
      have hd := hne d (by simp)
      unfold Cells.insert
      split
      · rename_i hlt
        refine List.pairwise_cons.mpr ⟨fun c hc => ?_, h.1⟩
        rcases List.mem_cons.mp hc with rfl | hc
        · exact hlt
        · exact Nat.lt_trans hlt (hp.1 c hc)
      · refine List.pairwise_cons.mpr ⟨fun c hc => ?_, ih ⟨hp.2, fun c hc => h.2 c (by simp [hc])⟩
          (fun c hc => hne c (by simp [hc]))⟩
        rcases Cells.mem_insert.mp hc with rfl | hc
        · show d.1 < a
          omega
        · exact hp.1 c hc
  · rcases Cells.mem_insert.mp hc with rfl | hc
    · exact ⟨ha, hv⟩
    · exact h.2 c hc

/-- Writing within the storage keeps its canonical form. -/
theorem Cells.wf_write {u : Nat → Byte} {size : Nat} {l : List Host.Cell} (h : Cells.wf u size l) {a : Nat} (ha : a < size)
    (v : Byte) : Cells.wf u size (Cells.write u l a v) := by
  unfold Cells.write
  split
  · exact Cells.wf_erase h a
  · rename_i hv
    exact Cells.wf_insert (Cells.wf_erase h a) ha hv (Cells.erase_ne l a)

@[simp] theorem Memory.read_write (m : List Host.Cell) (a b : Nat) (v : Byte) :
    Memory.read (Memory.write m a v) b = if b = a then v else Memory.read m b :=
  Cells.read_write _ m a b v

theorem Memory.wf_write {m : List Host.Cell} (h : Memory.wf m) {a : Nat} (ha : a < Config.memSize) (v : Byte) :
    Memory.wf (Memory.write m a v) :=
  Cells.wf_write h ha v

@[simp] theorem Framebuffer.read_write (fb : List Host.Cell) (k j : Nat) (v : Byte) :
    Framebuffer.read (Framebuffer.write fb k v) j = if j = k then v else Framebuffer.read fb j :=
  Cells.read_write _ fb k j v

theorem Framebuffer.wf_write {fb : List Host.Cell} (h : Framebuffer.wf fb) {k : Nat} (hk : k < Config.fbSize) (v : Byte) :
    Framebuffer.wf (Framebuffer.write fb k v) :=
  Cells.wf_write h hk v

@[simp] theorem Framebuffer.read_nil (k : Nat) : Framebuffer.read [] k = 0x00#8 := rfl

@[simp] theorem Memory.read_nil (a : Nat) : Memory.read [] a = defaultFontBytes.getD a 0x00#8 := rfl

/-- Below every listed index, an index reads as unlisted. -/
theorem Cells.read_below (u : Nat → Byte) (l : List Host.Cell) {a : Nat} (h : ∀ c ∈ l, a < c.1) :
    Cells.read u l a = u a := by
  induction l with
  | nil => rfl
  | cons c rest ih =>
    have hc := h c (by simp)
    simp only [Cells.read]
    rw [if_neg (by omega)]
    exact ih (fun d hd => h d (by simp [hd]))

theorem Cells.read_head (u : Nat → Byte) (c : Host.Cell) (l : List Host.Cell) : Cells.read u (c :: l) c.1 = c.2 := by
  simp [Cells.read]

theorem Cells.wf_tail {u : Nat → Byte} {size : Nat} {c : Host.Cell} {l : List Host.Cell} (h : Cells.wf u size (c :: l)) :
    Cells.wf u size l :=
  ⟨(List.pairwise_cons.mp h.1).2, fun d hd => h.2 d (by simp [hd])⟩

theorem Cells.read_below_head {u : Nat → Byte} {size : Nat} {c : Host.Cell} {l : List Host.Cell}
    (h : Cells.wf u size (c :: l)) {a : Nat} (ha : a < c.1) : Cells.read u (c :: l) a = u a := by
  refine Cells.read_below u _ (fun d hd => ?_)
  rcases List.mem_cons.mp hd with rfl | hd
  · exact ha
  · exact Nat.lt_trans ha ((List.pairwise_cons.mp h.1).1 d hd)

/-- Two storages in canonical form that read alike are the same list: equal storages are equal data. -/
theorem Cells.ext_of_wf {u : Nat → Byte} {size : Nat} {l m : List Host.Cell} (hl : Cells.wf u size l)
    (hm : Cells.wf u size m) (h : ∀ a, Cells.read u l a = Cells.read u m a) : l = m := by
  induction l generalizing m with
  | nil =>
    cases m with
    | nil => rfl
    | cons d r => exact absurd ((Cells.read_head u d r).symm.trans (h d.1).symm) (hm.2 d (by simp)).2
  | cons c l ih =>
    cases m with
    | nil => exact absurd ((Cells.read_head u c l).symm.trans (h c.1)) (hl.2 c (by simp)).2
    | cons d r =>
      have hkey : c.1 = d.1 := by
        rcases Nat.lt_trichotomy c.1 d.1 with hlt | heq | hgt
        · have hc := Cells.read_below_head hm hlt
          rw [← h, Cells.read_head] at hc
          exact absurd hc (hl.2 c (by simp)).2
        · exact heq
        · have hd := Cells.read_below_head hl hgt
          rw [h, Cells.read_head] at hd
          exact absurd hd (hm.2 d (by simp)).2
      have hval : c.2 = d.2 := by
        have hc := h c.1
        rwa [Cells.read_head, hkey, Cells.read_head] at hc
      obtain rfl : c = d := Prod.ext hkey hval
      refine congrArg (c :: ·) (ih (Cells.wf_tail hl) (Cells.wf_tail hm) (fun a => ?_))
      by_cases ha : a = c.1
      · subst ha
        rw [Cells.read_below u l (List.pairwise_cons.mp hl.1).1, Cells.read_below u r (List.pairwise_cons.mp hm.1).1]
      · simpa [Cells.read, Ne.symm ha] using h a

end Sys2Proof.Machine
end

