-- ==== Sys2Proof/Laws/State.lean ====
section
/-! SUPPORT. One lemma per field per update of State, true by definition. -/

namespace Sys2Proof.Machine

section setPc

@[simp] theorem State.setPc_pc (s : State) (x : Word) : (s.setPc x).pc = x := rfl
@[simp] theorem State.setPc_v (s : State) (x : Word) : (s.setPc x).v = s.v := rfl
@[simp] theorem State.setPc_i (s : State) (x : Word) : (s.setPc x).i = s.i := rfl
@[simp] theorem State.setPc_sp (s : State) (x : Word) : (s.setPc x).sp = s.sp := rfl
@[simp] theorem State.setPc_stack (s : State) (x : Word) : (s.setPc x).stack = s.stack := rfl
@[simp] theorem State.setPc_dt (s : State) (x : Word) : (s.setPc x).dt = s.dt := rfl
@[simp] theorem State.setPc_st (s : State) (x : Word) : (s.setPc x).st = s.st := rfl
@[simp] theorem State.setPc_keys (s : State) (x : Word) : (s.setPc x).keys = s.keys := rfl
@[simp] theorem State.setPc_fb (s : State) (x : Word) : (s.setPc x).fb = s.fb := rfl
@[simp] theorem State.setPc_mem (s : State) (x : Word) : (s.setPc x).mem = s.mem := rfl
@[simp] theorem State.setPc_draws (s : State) (x : Word) : (s.setPc x).draws = s.draws := rfl

end setPc

section setI

@[simp] theorem State.setI_pc (s : State) (x : Word) : (s.setI x).pc = s.pc := rfl
@[simp] theorem State.setI_v (s : State) (x : Word) : (s.setI x).v = s.v := rfl
@[simp] theorem State.setI_i (s : State) (x : Word) : (s.setI x).i = x := rfl
@[simp] theorem State.setI_sp (s : State) (x : Word) : (s.setI x).sp = s.sp := rfl
@[simp] theorem State.setI_stack (s : State) (x : Word) : (s.setI x).stack = s.stack := rfl
@[simp] theorem State.setI_dt (s : State) (x : Word) : (s.setI x).dt = s.dt := rfl
@[simp] theorem State.setI_st (s : State) (x : Word) : (s.setI x).st = s.st := rfl
@[simp] theorem State.setI_keys (s : State) (x : Word) : (s.setI x).keys = s.keys := rfl
@[simp] theorem State.setI_fb (s : State) (x : Word) : (s.setI x).fb = s.fb := rfl
@[simp] theorem State.setI_mem (s : State) (x : Word) : (s.setI x).mem = s.mem := rfl
@[simp] theorem State.setI_draws (s : State) (x : Word) : (s.setI x).draws = s.draws := rfl

end setI

section setDt

@[simp] theorem State.setDt_pc (s : State) (x : Byte) : (s.setDt x).pc = s.pc := rfl
@[simp] theorem State.setDt_v (s : State) (x : Byte) : (s.setDt x).v = s.v := rfl
@[simp] theorem State.setDt_i (s : State) (x : Byte) : (s.setDt x).i = s.i := rfl
@[simp] theorem State.setDt_sp (s : State) (x : Byte) : (s.setDt x).sp = s.sp := rfl
@[simp] theorem State.setDt_stack (s : State) (x : Byte) : (s.setDt x).stack = s.stack := rfl
@[simp] theorem State.setDt_dt (s : State) (x : Byte) : (s.setDt x).dt = x := rfl
@[simp] theorem State.setDt_st (s : State) (x : Byte) : (s.setDt x).st = s.st := rfl
@[simp] theorem State.setDt_keys (s : State) (x : Byte) : (s.setDt x).keys = s.keys := rfl
@[simp] theorem State.setDt_fb (s : State) (x : Byte) : (s.setDt x).fb = s.fb := rfl
@[simp] theorem State.setDt_mem (s : State) (x : Byte) : (s.setDt x).mem = s.mem := rfl
@[simp] theorem State.setDt_draws (s : State) (x : Byte) : (s.setDt x).draws = s.draws := rfl

end setDt

section setSt

@[simp] theorem State.setSt_pc (s : State) (x : Byte) : (s.setSt x).pc = s.pc := rfl
@[simp] theorem State.setSt_v (s : State) (x : Byte) : (s.setSt x).v = s.v := rfl
@[simp] theorem State.setSt_i (s : State) (x : Byte) : (s.setSt x).i = s.i := rfl
@[simp] theorem State.setSt_sp (s : State) (x : Byte) : (s.setSt x).sp = s.sp := rfl
@[simp] theorem State.setSt_stack (s : State) (x : Byte) : (s.setSt x).stack = s.stack := rfl
@[simp] theorem State.setSt_dt (s : State) (x : Byte) : (s.setSt x).dt = s.dt := rfl
@[simp] theorem State.setSt_st (s : State) (x : Byte) : (s.setSt x).st = x := rfl
@[simp] theorem State.setSt_keys (s : State) (x : Byte) : (s.setSt x).keys = s.keys := rfl
@[simp] theorem State.setSt_fb (s : State) (x : Byte) : (s.setSt x).fb = s.fb := rfl
@[simp] theorem State.setSt_mem (s : State) (x : Byte) : (s.setSt x).mem = s.mem := rfl
@[simp] theorem State.setSt_draws (s : State) (x : Byte) : (s.setSt x).draws = s.draws := rfl

end setSt

section setStack

@[simp] theorem State.setStack_pc (s : State) (x : Vector Word 16) (n : Fin 17) : (s.setStack x n).pc = s.pc := rfl
@[simp] theorem State.setStack_v (s : State) (x : Vector Word 16) (n : Fin 17) : (s.setStack x n).v = s.v := rfl
@[simp] theorem State.setStack_i (s : State) (x : Vector Word 16) (n : Fin 17) : (s.setStack x n).i = s.i := rfl
@[simp] theorem State.setStack_sp (s : State) (x : Vector Word 16) (n : Fin 17) : (s.setStack x n).sp = n := rfl
@[simp] theorem State.setStack_stack (s : State) (x : Vector Word 16) (n : Fin 17) : (s.setStack x n).stack = x := rfl
@[simp] theorem State.setStack_dt (s : State) (x : Vector Word 16) (n : Fin 17) : (s.setStack x n).dt = s.dt := rfl
@[simp] theorem State.setStack_st (s : State) (x : Vector Word 16) (n : Fin 17) : (s.setStack x n).st = s.st := rfl
@[simp] theorem State.setStack_keys (s : State) (x : Vector Word 16) (n : Fin 17) : (s.setStack x n).keys = s.keys := rfl
@[simp] theorem State.setStack_fb (s : State) (x : Vector Word 16) (n : Fin 17) : (s.setStack x n).fb = s.fb := rfl
@[simp] theorem State.setStack_mem (s : State) (x : Vector Word 16) (n : Fin 17) : (s.setStack x n).mem = s.mem := rfl
@[simp] theorem State.setStack_draws (s : State) (x : Vector Word 16) (n : Fin 17) : (s.setStack x n).draws = s.draws := rfl

end setStack

section setKeys

@[simp] theorem State.setKeys_pc (s : State) (x : Vector Bool 16) : (s.setKeys x).pc = s.pc := rfl
@[simp] theorem State.setKeys_v (s : State) (x : Vector Bool 16) : (s.setKeys x).v = s.v := rfl
@[simp] theorem State.setKeys_i (s : State) (x : Vector Bool 16) : (s.setKeys x).i = s.i := rfl
@[simp] theorem State.setKeys_sp (s : State) (x : Vector Bool 16) : (s.setKeys x).sp = s.sp := rfl
@[simp] theorem State.setKeys_stack (s : State) (x : Vector Bool 16) : (s.setKeys x).stack = s.stack := rfl
@[simp] theorem State.setKeys_dt (s : State) (x : Vector Bool 16) : (s.setKeys x).dt = s.dt := rfl
@[simp] theorem State.setKeys_st (s : State) (x : Vector Bool 16) : (s.setKeys x).st = s.st := rfl
@[simp] theorem State.setKeys_keys (s : State) (x : Vector Bool 16) : (s.setKeys x).keys = x := rfl
@[simp] theorem State.setKeys_fb (s : State) (x : Vector Bool 16) : (s.setKeys x).fb = s.fb := rfl
@[simp] theorem State.setKeys_mem (s : State) (x : Vector Bool 16) : (s.setKeys x).mem = s.mem := rfl
@[simp] theorem State.setKeys_draws (s : State) (x : Vector Bool 16) : (s.setKeys x).draws = s.draws := rfl

end setKeys

section setFb

@[simp] theorem State.setFb_pc (s : State) (x : List Host.Cell) : (s.setFb x).pc = s.pc := rfl
@[simp] theorem State.setFb_v (s : State) (x : List Host.Cell) : (s.setFb x).v = s.v := rfl
@[simp] theorem State.setFb_i (s : State) (x : List Host.Cell) : (s.setFb x).i = s.i := rfl
@[simp] theorem State.setFb_sp (s : State) (x : List Host.Cell) : (s.setFb x).sp = s.sp := rfl
@[simp] theorem State.setFb_stack (s : State) (x : List Host.Cell) : (s.setFb x).stack = s.stack := rfl
@[simp] theorem State.setFb_dt (s : State) (x : List Host.Cell) : (s.setFb x).dt = s.dt := rfl
@[simp] theorem State.setFb_st (s : State) (x : List Host.Cell) : (s.setFb x).st = s.st := rfl
@[simp] theorem State.setFb_keys (s : State) (x : List Host.Cell) : (s.setFb x).keys = s.keys := rfl
@[simp] theorem State.setFb_fb (s : State) (x : List Host.Cell) : (s.setFb x).fb = x := rfl
@[simp] theorem State.setFb_mem (s : State) (x : List Host.Cell) : (s.setFb x).mem = s.mem := rfl
@[simp] theorem State.setFb_draws (s : State) (x : List Host.Cell) : (s.setFb x).draws = s.draws := rfl

end setFb

section setMem

@[simp] theorem State.setMem_pc (s : State) (x : List Host.Cell) : (s.setMem x).pc = s.pc := rfl
@[simp] theorem State.setMem_v (s : State) (x : List Host.Cell) : (s.setMem x).v = s.v := rfl
@[simp] theorem State.setMem_i (s : State) (x : List Host.Cell) : (s.setMem x).i = s.i := rfl
@[simp] theorem State.setMem_sp (s : State) (x : List Host.Cell) : (s.setMem x).sp = s.sp := rfl
@[simp] theorem State.setMem_stack (s : State) (x : List Host.Cell) : (s.setMem x).stack = s.stack := rfl
@[simp] theorem State.setMem_dt (s : State) (x : List Host.Cell) : (s.setMem x).dt = s.dt := rfl
@[simp] theorem State.setMem_st (s : State) (x : List Host.Cell) : (s.setMem x).st = s.st := rfl
@[simp] theorem State.setMem_keys (s : State) (x : List Host.Cell) : (s.setMem x).keys = s.keys := rfl
@[simp] theorem State.setMem_fb (s : State) (x : List Host.Cell) : (s.setMem x).fb = s.fb := rfl
@[simp] theorem State.setMem_mem (s : State) (x : List Host.Cell) : (s.setMem x).mem = x := rfl
@[simp] theorem State.setMem_draws (s : State) (x : List Host.Cell) : (s.setMem x).draws = s.draws := rfl

end setMem

section countDraw

@[simp] theorem State.countDraw_pc (s : State) : (s.countDraw).pc = s.pc := rfl
@[simp] theorem State.countDraw_v (s : State) : (s.countDraw).v = s.v := rfl
@[simp] theorem State.countDraw_i (s : State) : (s.countDraw).i = s.i := rfl
@[simp] theorem State.countDraw_sp (s : State) : (s.countDraw).sp = s.sp := rfl
@[simp] theorem State.countDraw_stack (s : State) : (s.countDraw).stack = s.stack := rfl
@[simp] theorem State.countDraw_dt (s : State) : (s.countDraw).dt = s.dt := rfl
@[simp] theorem State.countDraw_st (s : State) : (s.countDraw).st = s.st := rfl
@[simp] theorem State.countDraw_keys (s : State) : (s.countDraw).keys = s.keys := rfl
@[simp] theorem State.countDraw_fb (s : State) : (s.countDraw).fb = s.fb := rfl
@[simp] theorem State.countDraw_mem (s : State) : (s.countDraw).mem = s.mem := rfl
@[simp] theorem State.countDraw_draws (s : State) : (s.countDraw).draws = s.draws + 1 := rfl

end countDraw

section setReg

@[simp] theorem State.setReg_pc (s : State) (r : Reg) (x : Byte) : (s.setReg r x).pc = s.pc := rfl
@[simp] theorem State.setReg_v (s : State) (r : Reg) (x : Byte) : (s.setReg r x).v = s.v.set r.toNat x r.isLt := rfl
@[simp] theorem State.setReg_i (s : State) (r : Reg) (x : Byte) : (s.setReg r x).i = s.i := rfl
@[simp] theorem State.setReg_sp (s : State) (r : Reg) (x : Byte) : (s.setReg r x).sp = s.sp := rfl
@[simp] theorem State.setReg_stack (s : State) (r : Reg) (x : Byte) : (s.setReg r x).stack = s.stack := rfl
@[simp] theorem State.setReg_dt (s : State) (r : Reg) (x : Byte) : (s.setReg r x).dt = s.dt := rfl
@[simp] theorem State.setReg_st (s : State) (r : Reg) (x : Byte) : (s.setReg r x).st = s.st := rfl
@[simp] theorem State.setReg_keys (s : State) (r : Reg) (x : Byte) : (s.setReg r x).keys = s.keys := rfl
@[simp] theorem State.setReg_fb (s : State) (r : Reg) (x : Byte) : (s.setReg r x).fb = s.fb := rfl
@[simp] theorem State.setReg_mem (s : State) (r : Reg) (x : Byte) : (s.setReg r x).mem = s.mem := rfl
@[simp] theorem State.setReg_draws (s : State) (r : Reg) (x : Byte) : (s.setReg r x).draws = s.draws := rfl

end setReg

section reset

@[simp] theorem State.reset_pc : State.reset.pc = 0x0200#16 := rfl
@[simp] theorem State.reset_v : State.reset.v = Vector.replicate 16 0x00#8 := rfl
@[simp] theorem State.reset_i : State.reset.i = 0x0000#16 := rfl
@[simp] theorem State.reset_sp : State.reset.sp = 0 := rfl
@[simp] theorem State.reset_stack : State.reset.stack = Vector.replicate 16 0x0000#16 := rfl
@[simp] theorem State.reset_dt : State.reset.dt = 0x00#8 := rfl
@[simp] theorem State.reset_st : State.reset.st = 0x00#8 := rfl
@[simp] theorem State.reset_keys : State.reset.keys = Vector.replicate 16 false := rfl
@[simp] theorem State.reset_fb : State.reset.fb = [] := rfl
@[simp] theorem State.reset_mem : State.reset.mem = [] := rfl
@[simp] theorem State.reset_draws : State.reset.draws = 0 := rfl

end reset
section advance

@[simp] theorem State.advance_pc (s : State) (n : Word) : (s.advance n).pc = s.pc + n := rfl
@[simp] theorem State.advance_v (s : State) (n : Word) : (s.advance n).v = s.v := rfl
@[simp] theorem State.advance_i (s : State) (n : Word) : (s.advance n).i = s.i := rfl
@[simp] theorem State.advance_sp (s : State) (n : Word) : (s.advance n).sp = s.sp := rfl
@[simp] theorem State.advance_stack (s : State) (n : Word) : (s.advance n).stack = s.stack := rfl
@[simp] theorem State.advance_dt (s : State) (n : Word) : (s.advance n).dt = s.dt := rfl
@[simp] theorem State.advance_st (s : State) (n : Word) : (s.advance n).st = s.st := rfl
@[simp] theorem State.advance_keys (s : State) (n : Word) : (s.advance n).keys = s.keys := rfl
@[simp] theorem State.advance_fb (s : State) (n : Word) : (s.advance n).fb = s.fb := rfl
@[simp] theorem State.advance_mem (s : State) (n : Word) : (s.advance n).mem = s.mem := rfl
@[simp] theorem State.advance_draws (s : State) (n : Word) : (s.advance n).draws = s.draws := rfl

end advance

/-! What the accessors see of each update that does not touch their field. -/

section reg

@[simp] theorem State.reg_setPc (s : State) (x : Word) (y : Reg) : (s.setPc x).reg y = s.reg y := rfl
@[simp] theorem State.reg_setI (s : State) (x : Word) (y : Reg) : (s.setI x).reg y = s.reg y := rfl
@[simp] theorem State.reg_setDt (s : State) (x : Byte) (y : Reg) : (s.setDt x).reg y = s.reg y := rfl
@[simp] theorem State.reg_setSt (s : State) (x : Byte) (y : Reg) : (s.setSt x).reg y = s.reg y := rfl
@[simp] theorem State.reg_setStack (s : State) (x : Vector Word 16) (n : Fin 17) (y : Reg) : (s.setStack x n).reg y = s.reg y := rfl
@[simp] theorem State.reg_setKeys (s : State) (x : Vector Bool 16) (y : Reg) : (s.setKeys x).reg y = s.reg y := rfl
@[simp] theorem State.reg_setFb (s : State) (x : List Host.Cell) (y : Reg) : (s.setFb x).reg y = s.reg y := rfl
@[simp] theorem State.reg_setMem (s : State) (x : List Host.Cell) (y : Reg) : (s.setMem x).reg y = s.reg y := rfl
@[simp] theorem State.reg_countDraw (s : State) (y : Reg) : (s.countDraw).reg y = s.reg y := rfl
@[simp] theorem State.reg_advance (s : State) (n : Word) (y : Reg) : (s.advance n).reg y = s.reg y := rfl

end reg

section readByte

@[simp] theorem State.readByte_setPc (s : State) (x : Word) (a : Nat) : (s.setPc x).readByte a = s.readByte a := rfl
@[simp] theorem State.readByte_setI (s : State) (x : Word) (a : Nat) : (s.setI x).readByte a = s.readByte a := rfl
@[simp] theorem State.readByte_setDt (s : State) (x : Byte) (a : Nat) : (s.setDt x).readByte a = s.readByte a := rfl
@[simp] theorem State.readByte_setSt (s : State) (x : Byte) (a : Nat) : (s.setSt x).readByte a = s.readByte a := rfl
@[simp] theorem State.readByte_setStack (s : State) (x : Vector Word 16) (n : Fin 17) (a : Nat) : (s.setStack x n).readByte a = s.readByte a := rfl
@[simp] theorem State.readByte_setKeys (s : State) (x : Vector Bool 16) (a : Nat) : (s.setKeys x).readByte a = s.readByte a := rfl
@[simp] theorem State.readByte_setFb (s : State) (x : List Host.Cell) (a : Nat) : (s.setFb x).readByte a = s.readByte a := rfl
@[simp] theorem State.readByte_countDraw (s : State) (a : Nat) : (s.countDraw).readByte a = s.readByte a := rfl
@[simp] theorem State.readByte_setReg (s : State) (r : Reg) (x : Byte) (a : Nat) : (s.setReg r x).readByte a = s.readByte a := rfl
@[simp] theorem State.readByte_advance (s : State) (n : Word) (a : Nat) : (s.advance n).readByte a = s.readByte a := rfl

end readByte

section pixel

@[simp] theorem State.pixel_setPc (s : State) (x : Word) (c d : Nat) : (s.setPc x).pixel c d = s.pixel c d := rfl
@[simp] theorem State.pixel_setI (s : State) (x : Word) (c d : Nat) : (s.setI x).pixel c d = s.pixel c d := rfl
@[simp] theorem State.pixel_setDt (s : State) (x : Byte) (c d : Nat) : (s.setDt x).pixel c d = s.pixel c d := rfl
@[simp] theorem State.pixel_setSt (s : State) (x : Byte) (c d : Nat) : (s.setSt x).pixel c d = s.pixel c d := rfl
@[simp] theorem State.pixel_setStack (s : State) (x : Vector Word 16) (n : Fin 17) (c d : Nat) : (s.setStack x n).pixel c d = s.pixel c d := rfl
@[simp] theorem State.pixel_setKeys (s : State) (x : Vector Bool 16) (c d : Nat) : (s.setKeys x).pixel c d = s.pixel c d := rfl
@[simp] theorem State.pixel_setMem (s : State) (x : List Host.Cell) (c d : Nat) : (s.setMem x).pixel c d = s.pixel c d := rfl
@[simp] theorem State.pixel_countDraw (s : State) (c d : Nat) : (s.countDraw).pixel c d = s.pixel c d := rfl
@[simp] theorem State.pixel_setReg (s : State) (r : Reg) (x : Byte) (c d : Nat) : (s.setReg r x).pixel c d = s.pixel c d := rfl
@[simp] theorem State.pixel_advance (s : State) (n : Word) (c d : Nat) : (s.advance n).pixel c d = s.pixel c d := rfl

end pixel

section key

@[simp] theorem State.key_setPc (s : State) (x : Word) (k : Nibble) : (s.setPc x).key k = s.key k := rfl
@[simp] theorem State.key_setI (s : State) (x : Word) (k : Nibble) : (s.setI x).key k = s.key k := rfl
@[simp] theorem State.key_setDt (s : State) (x : Byte) (k : Nibble) : (s.setDt x).key k = s.key k := rfl
@[simp] theorem State.key_setSt (s : State) (x : Byte) (k : Nibble) : (s.setSt x).key k = s.key k := rfl
@[simp] theorem State.key_setStack (s : State) (x : Vector Word 16) (n : Fin 17) (k : Nibble) : (s.setStack x n).key k = s.key k := rfl
@[simp] theorem State.key_setFb (s : State) (x : List Host.Cell) (k : Nibble) : (s.setFb x).key k = s.key k := rfl
@[simp] theorem State.key_setMem (s : State) (x : List Host.Cell) (k : Nibble) : (s.setMem x).key k = s.key k := rfl
@[simp] theorem State.key_countDraw (s : State) (k : Nibble) : (s.countDraw).key k = s.key k := rfl
@[simp] theorem State.key_setReg (s : State) (r : Reg) (x : Byte) (k : Nibble) : (s.setReg r x).key k = s.key k := rfl
@[simp] theorem State.key_advance (s : State) (n : Word) (k : Nibble) : (s.advance n).key k = s.key k := rfl

end key

section effective

@[simp] theorem State.effective_setPc (s : State) (x : Word) (k : Nat) : (s.setPc x).effective k = s.effective k := rfl
@[simp] theorem State.effective_setDt (s : State) (x : Byte) (k : Nat) : (s.setDt x).effective k = s.effective k := rfl
@[simp] theorem State.effective_setSt (s : State) (x : Byte) (k : Nat) : (s.setSt x).effective k = s.effective k := rfl
@[simp] theorem State.effective_setStack (s : State) (x : Vector Word 16) (n : Fin 17) (k : Nat) : (s.setStack x n).effective k = s.effective k := rfl
@[simp] theorem State.effective_setKeys (s : State) (x : Vector Bool 16) (k : Nat) : (s.setKeys x).effective k = s.effective k := rfl
@[simp] theorem State.effective_setFb (s : State) (x : List Host.Cell) (k : Nat) : (s.setFb x).effective k = s.effective k := rfl
@[simp] theorem State.effective_setMem (s : State) (x : List Host.Cell) (k : Nat) : (s.setMem x).effective k = s.effective k := rfl
@[simp] theorem State.effective_countDraw (s : State) (k : Nat) : (s.countDraw).effective k = s.effective k := rfl
@[simp] theorem State.effective_setReg (s : State) (r : Reg) (x : Byte) (k : Nat) : (s.setReg r x).effective k = s.effective k := rfl
@[simp] theorem State.effective_advance (s : State) (n : Word) (k : Nat) : (s.advance n).effective k = s.effective k := rfl

end effective

end Sys2Proof.Machine
end

