-- ==== Sys2Proof/Laws/Ops.lean ====
section
/-! SUPPORT. What each shared operation does, said once: registers, stores, the transfer check, the fetch, the call stack,
the keypad, the timers, INIT. -/

namespace Sys2Proof.Machine

/-! Registers. -/

@[simp] theorem State.reg_setReg (s : State) (x y : Reg) (b : Byte) :
    (s.setReg x b).reg y = if y = x then b else s.reg y := by
  unfold State.reg State.setReg
  simp only [Vector.getElem_set]
  by_cases h : y = x
  · simp [h]
  · rw [if_neg h, if_neg (fun e => h (BitVec.eq_of_toNat_eq e.symm))]

@[simp] theorem State.reset_reg (x : Reg) : State.reset.reg x = 0x00#8 := by
  simp [State.reg, State.reset]

/-! Memory. -/

@[simp] theorem State.readByte_writeByte (s : State) (a b : Nat) (v : Byte) :
    (s.writeByte a v).readByte b = if b = a then v else s.readByte b :=
  Memory.read_write s.mem a b v

@[simp] theorem State.readByte_reset (a : Nat) : State.reset.readByte a = defaultFontBytes.getD a 0x00#8 := rfl

/-- Storing bytes changes memory only. -/
theorem State.storeBytes_eq (s : State) (a : Nat) (bytes : List Byte) :
    s.storeBytes a bytes = s.setMem (s.storeBytes a bytes).mem := by
  induction bytes generalizing s a with
  | nil => rfl
  | cons b rest ih =>
    unfold State.storeBytes
    rw [ih]
    rfl

@[simp] theorem State.storeBytes_pc (s : State) (a : Nat) (bytes : List Byte) : (s.storeBytes a bytes).pc = s.pc := by
  rw [State.storeBytes_eq]; rfl
@[simp] theorem State.storeBytes_v (s : State) (a : Nat) (bytes : List Byte) : (s.storeBytes a bytes).v = s.v := by
  rw [State.storeBytes_eq]; rfl
@[simp] theorem State.storeBytes_i (s : State) (a : Nat) (bytes : List Byte) : (s.storeBytes a bytes).i = s.i := by
  rw [State.storeBytes_eq]; rfl
@[simp] theorem State.storeBytes_sp (s : State) (a : Nat) (bytes : List Byte) : (s.storeBytes a bytes).sp = s.sp := by
  rw [State.storeBytes_eq]; rfl
@[simp] theorem State.storeBytes_stack (s : State) (a : Nat) (bytes : List Byte) :
    (s.storeBytes a bytes).stack = s.stack := by
  rw [State.storeBytes_eq]; rfl
@[simp] theorem State.storeBytes_dt (s : State) (a : Nat) (bytes : List Byte) : (s.storeBytes a bytes).dt = s.dt := by
  rw [State.storeBytes_eq]; rfl
@[simp] theorem State.storeBytes_st (s : State) (a : Nat) (bytes : List Byte) : (s.storeBytes a bytes).st = s.st := by
  rw [State.storeBytes_eq]; rfl
@[simp] theorem State.storeBytes_keys (s : State) (a : Nat) (bytes : List Byte) :
    (s.storeBytes a bytes).keys = s.keys := by
  rw [State.storeBytes_eq]; rfl
@[simp] theorem State.storeBytes_fb (s : State) (a : Nat) (bytes : List Byte) : (s.storeBytes a bytes).fb = s.fb := by
  rw [State.storeBytes_eq]; rfl
@[simp] theorem State.storeBytes_draws (s : State) (a : Nat) (bytes : List Byte) :
    (s.storeBytes a bytes).draws = s.draws := by
  rw [State.storeBytes_eq]; rfl
@[simp] theorem State.storeBytes_reg (s : State) (a : Nat) (bytes : List Byte) (x : Reg) :
    (s.storeBytes a bytes).reg x = s.reg x := by
  rw [State.storeBytes_eq]; rfl

/-- A byte read after a store: the stored byte inside the stored range, the byte before the store outside it. -/
theorem State.readByte_storeBytes (s : State) (a : Nat) (bytes : List Byte) (b : Nat) :
    (s.storeBytes a bytes).readByte b =
      if a ≤ b ∧ b < a + bytes.length then bytes.getD (b - a) 0x00#8 else s.readByte b := by
  induction bytes generalizing s a with
  | nil => simp [State.storeBytes]
  | cons c rest ih =>
    simp only [State.storeBytes, ih, State.readByte_writeByte, List.length_cons]
    rcases Nat.lt_trichotomy b a with h | h | h
    · rw [if_neg (by omega), if_neg (by omega), if_neg (by omega)]
    · subst h
      rw [if_neg (by omega), if_pos rfl, if_pos (by omega)]
      simp
    · by_cases hr : b < a + (rest.length + 1)
      · rw [if_pos (by omega), if_pos (by omega)]
        have : b - a = (b - (a + 1)) + 1 := by omega
        rw [this, List.getD_cons_succ]
      · rw [if_neg (by omega), if_neg (by omega), if_neg (by omega)]

/-- A store within memory keeps memory's canonical form. -/
theorem State.wf_storeBytes {s : State} (h : Memory.wf s.mem) {a : Nat} {bytes : List Byte}
    (ha : bytes = [] ∨ a + bytes.length ≤ 4096) : Memory.wf (s.storeBytes a bytes).mem := by
  induction bytes generalizing s a with
  | nil => exact h
  | cons b rest ih =>
    have hlen : a + (rest.length + 1) ≤ 4096 := by simpa using ha
    exact ih (s := s.writeByte a b) (Memory.wf_write h (by show a < 4096; omega) b) (Or.inr (by omega))

/-! The transfer check. -/

theorem inMemory_iff (a n : Nat) : inMemory a n = true ↔ n = 0 ∨ a + n ≤ 4096 := by
  simp [inMemory, Config.memSize]

/-- What a guarded transfer answers: the transfer where all its addresses lie in memory, the AddressFault with the lowest
outside address where not. -/
theorem guardTransfer_eq (a n : Nat) (o : StepOutcome) :
    guardTransfer a n o = if n = 0 ∨ a + n ≤ 4096 then o else .fault (.addressFault (max a 4096)) := by
  unfold guardTransfer
  simp only [inMemory_iff]
  rfl

theorem guardTransfer_of_in {a n : Nat} (h : n = 0 ∨ a + n ≤ 4096) (o : StepOutcome) :
    guardTransfer a n o = o := by
  rw [guardTransfer_eq, if_pos h]

theorem guardTransfer_of_out {a n : Nat} (hn : n ≠ 0) (h : 4096 < a + n) (o : StepOutcome) :
    guardTransfer a n o = .fault (.addressFault (max a 4096)) := by
  rw [guardTransfer_eq, if_neg (by omega)]

theorem guardTransfer_next {a n : Nat} {o : StepOutcome} {t : State} (h : guardTransfer a n o = .next t) :
    (n = 0 ∨ a + n ≤ 4096) ∧ o = .next t := by
  rw [guardTransfer_eq] at h
  split at h
  · exact ⟨‹_›, h⟩
  · cases h

theorem done_next {s t : State} : done s = .next t ↔ t = s.advance 2#16 := by
  unfold done
  constructor
  · intro h; injection h with h; exact h.symm
  · rintro rfl; rfl

/-! The fetch. -/

/-- Both bytes of the opcode lie in memory exactly where pc is at most 4094. -/
theorem State.fetch_of_le {s : State} (h : s.pc.toNat ≤ 4094) :
    s.fetch = .opcode (opcodeOfBytes (s.readByte s.pc.toNat) (s.readByte (s.pc.toNat + 1))) := by
  unfold State.fetch
  rw [if_pos ((inMemory_iff _ _).mpr (Or.inr (by omega)))]

theorem State.fetch_of_ge {s : State} (h : 4095 ≤ s.pc.toNat) : s.fetch = .outside (max s.pc.toNat 4096) := by
  unfold State.fetch
  rw [if_neg (fun hin => ?_)]
  · rfl
  · have : s.pc.toNat + 2 ≤ 4096 := ((inMemory_iff _ _).mp hin).resolve_left (by omega)
    omega

theorem State.pc_le_of_fetch {s : State} {w : Word} (h : s.fetch = .opcode w) : s.pc.toNat ≤ 4094 := by
  by_contra hc
  rw [State.fetch_of_ge (by omega)] at h
  cases h

/-! The call stack. -/

theorem State.push_of_lt {s : State} (h : s.sp.val < 16) (a : Word) :
    s.push a = some (s.setStack (s.stack.set s.sp.val a h) ⟨s.sp.val + 1, by omega⟩) := by
  simp [State.push, h]

theorem State.push_of_full {s : State} (h : ¬ s.sp.val < 16) (a : Word) : s.push a = none := by
  simp [State.push, h]

theorem State.pop_of_pos {s : State} (h : 0 < s.sp.val) :
    s.pop = some (s.stack[s.sp.val - 1]'(by omega), s.setStack s.stack ⟨s.sp.val - 1, by omega⟩) := by
  simp [State.pop, h]

theorem State.pop_of_empty {s : State} (h : ¬ 0 < s.sp.val) : s.pop = none := by
  simp [State.pop, h]

/-! The keypad. -/

theorem State.firstKey_eq_some {s : State} {k : Nat} (h : s.firstKey = some k) :
    k < 16 ∧ s.key (BitVec.ofNat 4 k) = true ∧ ∀ j < k, s.key (BitVec.ofNat 4 j) = false := by
  obtain ⟨hk, hmem, hmin⟩ := List.find?_range_eq_some.mp h
  exact ⟨by simpa using hmem, hk, by simpa using hmin⟩

theorem State.firstKey_eq_none {s : State} : s.firstKey = none ↔ ∀ k : Nibble, s.key k = false := by
  constructor
  · intro h k
    have := List.find?_eq_none.mp h k.toNat (by simpa using k.isLt)
    simpa using this
  · intro h
    exact List.find?_eq_none.mpr (fun k _ => by simp [h])

@[simp] theorem State.key_writeKey (s : State) (k j : Nibble) (b : Bool) :
    (s.writeKey k b).key j = if j = k then b else s.key j := by
  unfold State.key State.writeKey State.setKeys
  simp only [Vector.getElem_set]
  by_cases h : j = k
  · simp [h]
  · rw [if_neg h, if_neg (fun e => h (BitVec.eq_of_toNat_eq e.symm))]

/-! The timers. -/

theorem countDown_toNat (t : Byte) : (countDown t).toNat = t.toNat - 1 := by
  unfold countDown
  split
  · simp_all
  · rename_i h
    have : t.toNat ≠ 0 := fun e => h (BitVec.eq_of_toNat_eq e)
    bv_omega

/-! INIT. -/

/-- Memory after INIT is in canonical form where the image fits. -/
theorem wf_imageMemory (font : Font) {image : List Byte} (h : image.length ≤ Config.maxImage) :
    Memory.wf (imageMemory font image) := by
  refine State.wf_storeBytes (State.wf_storeBytes ?_ (Or.inr ?_)) (Or.inr ?_)
  · exact ⟨List.Pairwise.nil, fun c hc => absurd hc (by simp)⟩
  · simp; decide
  · show 0x200 + image.length ≤ 4096
    have : image.length ≤ 3584 := h
    omega

theorem init_of_fits (font : Font) {image : List Byte} (h : image.length ≤ 3584) (draws : Nat) :
    init font image draws = .next { State.reset with mem := imageMemory font image, draws := draws } := by
  unfold init
  rw [if_pos (by simpa [wellFormedImage] using h)]

theorem init_of_too_large (font : Font) {image : List Byte} (h : 3584 < image.length) (draws : Nat) :
    init font image draws = .fault (.loadFault .tooLarge image.length) := by
  unfold init
  rw [if_neg (by simpa [wellFormedImage] using h)]
  rfl

/-- What INIT answers. -/
theorem init_next {font : Font} {image : List Byte} {draws : Nat} {t : State} (h : init font image draws = .next t) :
    image.length ≤ Config.maxImage ∧ t = { State.reset with mem := imageMemory font image, draws := draws } := by
  unfold init at h
  split at h
  · rename_i hw
    injection h with h
    exact ⟨by simpa [wellFormedImage] using hw, h.symm⟩
  · cases h

end Sys2Proof.Machine
end

