-- ==== Sys2Proof/Laws/Operands.lean ====
section
/-! SUPPORT. What the operand forms and the flag writes do, said once. -/

namespace Sys2Proof.Machine

@[simp] theorem addressOf_toNat (nnn : Imm12) : (addressOf nnn).toNat = nnn.toNat := by
  have := nnn.isLt
  simp [addressOf]
  omega

@[simp] theorem widen_toNat (b : Byte) : (widen b).toNat = b.toNat := by
  have := b.isLt
  simp [widen]
  omega

@[simp] theorem State.effective_zero (s : State) : s.effective 0 = s.i.toNat := rfl

@[simp] theorem State.regsUpTo_length (s : State) (x : Reg) : (s.regsUpTo x).length = x.toNat + 1 := by
  simp [State.regsUpTo]

theorem State.regsUpTo_getD (s : State) (x : Reg) {k : Nat} (h : k ≤ x.toNat) :
    (s.regsUpTo x).getD k 0x00#8 = s.reg (BitVec.ofNat 4 k) := by
  simp [State.regsUpTo, List.getD_eq_getElem?_getD, Nat.lt_succ_of_le h]

@[simp] theorem State.readBytes_length (s : State) (a n : Nat) : (s.readBytes a n).length = n := by
  simp [State.readBytes]

theorem State.readBytes_getD (s : State) (a : Nat) {n k : Nat} (h : k < n) :
    (s.readBytes a n).getD k 0x00#8 = s.readByte (a + k) := by
  simp [State.readBytes, List.getD_eq_getElem?_getD, h]

/-- Writing a run of registers changes the registers only. -/
theorem State.setRegs_eq (s : State) (first : Nat) (bytes : List Byte) :
    s.setRegs first bytes = { s with v := (s.setRegs first bytes).v } := by
  induction bytes generalizing s first with
  | nil => rfl
  | cons b rest ih =>
    unfold State.setRegs
    rw [ih]
    rfl

/-- A register after a run of registers was written. -/
theorem State.reg_setRegs (s : State) (first : Nat) (bytes : List Byte) (h : first + bytes.length ≤ 16) (r : Reg) :
    (s.setRegs first bytes).reg r =
      if first ≤ r.toNat ∧ r.toNat < first + bytes.length then bytes.getD (r.toNat - first) 0x00#8 else s.reg r := by
  induction bytes generalizing s first with
  | nil => simp [State.setRegs]
  | cons b rest ih =>
    have hlen : first + 1 + rest.length ≤ 16 := by simp at h; omega
    have hnat : (BitVec.ofNat 4 first).toNat = first := by
      simp at h ⊢; omega
    simp only [State.setRegs, ih _ _ hlen, State.reg_setReg, List.length_cons]
    rcases Nat.lt_trichotomy r.toNat first with hr | hr | hr
    · rw [if_neg (by omega), if_neg (fun e => by rw [e, hnat] at hr; omega), if_neg (by omega)]
    · rw [if_neg (by omega), if_pos (BitVec.eq_of_toNat_eq (by rw [hnat, hr])), if_pos (by omega), hr]
      simp
    · have hne : r ≠ BitVec.ofNat 4 first := fun e => by rw [e, hnat] at hr; omega
      by_cases hin : r.toNat < first + (rest.length + 1)
      · rw [if_pos (by omega), if_pos (by omega)]
        have : r.toNat - first = (r.toNat - (first + 1)) + 1 := by omega
        rw [this, List.getD_cons_succ]
      · rw [if_neg (by omega), if_neg hne, if_neg (by omega)]

@[simp] theorem decimalDigits_length (b : Byte) : (decimalDigits b).length = 3 := rfl

theorem guardKey_of_le {b : Byte} (h : b.toNat ≤ 15) (body : Nibble → StepOutcome) :
    guardKey b body = body (BitVec.ofNat 4 b.toNat) := by
  simp [guardKey, h]

theorem guardKey_of_gt {b : Byte} (h : 15 < b.toNat) (body : Nibble → StepOutcome) :
    guardKey b body = .fault (.keyIndexFault b) := by
  unfold guardKey
  rw [if_neg (by omega)]
  rfl

theorem guardKey_next {b : Byte} {body : Nibble → StepOutcome} {t : State} (h : guardKey b body = .next t) :
    b.toNat ≤ 15 ∧ body (BitVec.ofNat 4 b.toNat) = .next t := by
  by_cases hb : b.toNat ≤ 15
  · exact ⟨hb, by rwa [guardKey_of_le hb] at h⟩
  · rw [guardKey_of_gt (by omega)] at h
    cases h

/-- A skip moves pc only. -/
theorem State.skipIf_eq (s : State) (taken : Bool) : s.skipIf taken = s.setPc (s.pc + if taken then 4#16 else 2#16) := rfl

/-- A result and then the flag: VF ends as the flag, the destination as the result unless it is VF. -/
@[simp] theorem State.reg_setResultThenFlag (s : State) (x y : Reg) (result flag : Byte) :
    (s.setResultThenFlag x result flag).reg y = if y = vf then flag else if y = x then result else s.reg y := by
  simp [State.setResultThenFlag]

/-- A result and flag write changes the registers only. -/
theorem State.setResultThenFlag_eq (s : State) (x : Reg) (result flag : Byte) :
    s.setResultThenFlag x result flag = { s with v := (s.setResultThenFlag x result flag).v } := rfl

/-! Every field but the registers after a result and flag write. -/

@[simp] theorem State.setResultThenFlag_pc (s : State) (x : Reg) (r f : Byte) :
    (s.setResultThenFlag x r f).pc = s.pc := rfl
@[simp] theorem State.setResultThenFlag_i (s : State) (x : Reg) (r f : Byte) :
    (s.setResultThenFlag x r f).i = s.i := rfl
@[simp] theorem State.setResultThenFlag_sp (s : State) (x : Reg) (r f : Byte) :
    (s.setResultThenFlag x r f).sp = s.sp := rfl
@[simp] theorem State.setResultThenFlag_stack (s : State) (x : Reg) (r f : Byte) :
    (s.setResultThenFlag x r f).stack = s.stack := rfl
@[simp] theorem State.setResultThenFlag_dt (s : State) (x : Reg) (r f : Byte) :
    (s.setResultThenFlag x r f).dt = s.dt := rfl
@[simp] theorem State.setResultThenFlag_st (s : State) (x : Reg) (r f : Byte) :
    (s.setResultThenFlag x r f).st = s.st := rfl
@[simp] theorem State.setResultThenFlag_keys (s : State) (x : Reg) (r f : Byte) :
    (s.setResultThenFlag x r f).keys = s.keys := rfl
@[simp] theorem State.setResultThenFlag_fb (s : State) (x : Reg) (r f : Byte) :
    (s.setResultThenFlag x r f).fb = s.fb := rfl
@[simp] theorem State.setResultThenFlag_mem (s : State) (x : Reg) (r f : Byte) :
    (s.setResultThenFlag x r f).mem = s.mem := rfl
@[simp] theorem State.setResultThenFlag_draws (s : State) (x : Reg) (r f : Byte) :
    (s.setResultThenFlag x r f).draws = s.draws := rfl

end Sys2Proof.Machine
end

