-- ==== Sys2Proof/Laws/Display.lean ====
section
/-! SUPPORT. What drawing does, cell by cell (spec/43_display.md R143): the loops of R142 visit every cell at most once, so a
cell is inverted exactly where a set sprite bit falls on it, and a collision is a visited cell that was on before. -/

namespace Sys2Proof.Machine

/-- The first `cols` bits of a sprite row at column x0 of row y put a set bit on cell k. -/
def rowHits (x0 y cols : Nat) (byte : Byte) (k : Nat) : Prop :=
  k / 64 = y ∧ x0 ≤ k % 64 ∧ k % 64 < x0 + cols ∧ spriteBit byte (k % 64 - x0) = true

/-- The first `rows` rows of the sprite at (x0, y0) put a set bit on cell k. -/
def State.spriteHits (s : State) (x0 y0 base rows k : Nat) : Prop :=
  y0 ≤ k / 64 ∧ k / 64 < y0 + rows ∧ rowHits x0 (k / 64) 8 (s.readByte (base + (k / 64 - y0))) k

theorem cellIndex_div {x : Nat} (y : Nat) (h : x < 64) : cellIndex x y / 64 = y := by
  show (y * 64 + x) / 64 = y
  omega

theorem cellIndex_mod {x : Nat} (y : Nat) (h : x < 64) : cellIndex x y % 64 = x := by
  show (y * 64 + x) % 64 = x
  omega

theorem eq_cellIndex_iff {x y k : Nat} (h : x < 64) : k = cellIndex x y ↔ k / 64 = y ∧ k % 64 = x := by
  show k = y * 64 + x ↔ _
  omega

/-- One cell drawn. -/
theorem drawCell_read (x y : Nat) (acc : List Host.Cell × Bool) (k : Nat) :
    Framebuffer.read (drawCell x y acc).1 k =
      if k = cellIndex x y then Framebuffer.read acc.1 k ^^^ 0xFF#8 else Framebuffer.read acc.1 k := by
  unfold drawCell
  rw [Framebuffer.read_write]
  split
  · rename_i h; rw [h]
  · rfl

theorem drawCell_collision (x y : Nat) (acc : List Host.Cell × Bool) :
    (drawCell x y acc).2 = true ↔ acc.2 = true ∨ Framebuffer.read acc.1 (cellIndex x y) = 0xFF#8 := by
  simp [drawCell]

/-- The loop over the bits of a row, up to the first `cols` of them. -/
def drawBits (x0 y cols : Nat) (byte : Byte) (acc : List Host.Cell × Bool) : List Host.Cell × Bool :=
  (List.range cols).foldl (fun acc b => if spriteBit byte b then drawCell (x0 + b) y acc else acc) acc

theorem drawBits_succ (x0 y cols : Nat) (byte : Byte) (acc : List Host.Cell × Bool) :
    drawBits x0 y (cols + 1) byte acc =
      if spriteBit byte cols then drawCell (x0 + cols) y (drawBits x0 y cols byte acc) else drawBits x0 y cols byte acc := by
  simp [drawBits, List.range_succ]

theorem rowHits_succ {x0 y cols : Nat} (byte : Byte) (k : Nat) (h : x0 + cols < 64) :
    rowHits x0 y (cols + 1) byte k ↔
      rowHits x0 y cols byte k ∨ (spriteBit byte cols = true ∧ k = cellIndex (x0 + cols) y) := by
  rw [eq_cellIndex_iff h]
  unfold rowHits
  constructor
  · rintro ⟨h1, h2, h3, h4⟩
    by_cases hc : k % 64 = x0 + cols
    · right
      rw [hc, Nat.add_sub_cancel_left] at h4
      exact ⟨h4, h1, hc⟩
    · exact Or.inl ⟨h1, h2, by omega, h4⟩
  · rintro (⟨h1, h2, h3, h4⟩ | ⟨h4, h1, h2⟩)
    · exact ⟨h1, h2, by omega, h4⟩
    · refine ⟨h1, by omega, by omega, ?_⟩
      rw [h2, Nat.add_sub_cancel_left]
      exact h4

/-- The bits drawn so far: which cells are inverted, and whether one of them was on. -/
theorem drawBits_spec (x0 y cols : Nat) (byte : Byte) (acc : List Host.Cell × Bool) (h : cols ≤ 64 - x0) :
    (∀ k, (rowHits x0 y cols byte k →
        Framebuffer.read (drawBits x0 y cols byte acc).1 k = Framebuffer.read acc.1 k ^^^ 0xFF#8) ∧
      (¬ rowHits x0 y cols byte k →
        Framebuffer.read (drawBits x0 y cols byte acc).1 k = Framebuffer.read acc.1 k)) ∧
    ((drawBits x0 y cols byte acc).2 = true ↔
      acc.2 = true ∨ ∃ k, rowHits x0 y cols byte k ∧ Framebuffer.read acc.1 k = 0xFF#8) := by
  induction cols with
  | zero =>
    have hno : ∀ k, ¬ rowHits x0 y 0 byte k := fun k hk => by
      obtain ⟨-, h2, h3, -⟩ := hk
      omega
    exact ⟨fun k => ⟨fun hk => absurd hk (hno k), fun _ => rfl⟩,
      ⟨Or.inl, fun hk => hk.resolve_right (fun ⟨k, hk, _⟩ => hno k hk)⟩⟩
  | succ cols ih =>
    have hlt : x0 + cols < 64 := by omega
    obtain ⟨ihc, ihv⟩ := ih (by omega)
    have hnew : ¬ rowHits x0 y cols byte (cellIndex (x0 + cols) y) := by
      rintro ⟨-, -, h3, -⟩
      rw [cellIndex_mod y hlt] at h3
      omega
    rw [drawBits_succ]
    by_cases hb : spriteBit byte cols = true
    · rw [if_pos hb]
      refine ⟨fun k => ⟨fun hk => ?_, fun hk => ?_⟩, ?_⟩
      · rw [drawCell_read]
        rcases (rowHits_succ byte k hlt).mp hk with hk | ⟨-, rfl⟩
        · rw [if_neg (show k ≠ cellIndex (x0 + cols) y from fun e => hnew (e ▸ hk)), (ihc k).1 hk]
        · rw [if_pos rfl, (ihc _).2 hnew]
      · have hk' := fun hh => hk ((rowHits_succ byte k hlt).mpr hh)
        rw [drawCell_read, if_neg (fun e => hk' (Or.inr ⟨hb, e⟩)), (ihc k).2 (fun hh => hk' (Or.inl hh))]
      · rw [drawCell_collision, ihv, (ihc _).2 hnew, or_assoc]
        refine or_congr_right ⟨?_, ?_⟩
        · rintro (⟨k, hk, hv⟩ | hv)
          · exact ⟨k, (rowHits_succ byte k hlt).mpr (Or.inl hk), hv⟩
          · exact ⟨_, (rowHits_succ byte _ hlt).mpr (Or.inr ⟨hb, rfl⟩), hv⟩
        · rintro ⟨k, hk, hv⟩
          rcases (rowHits_succ byte k hlt).mp hk with hk | ⟨-, rfl⟩
          · exact Or.inl ⟨k, hk, hv⟩
          · exact Or.inr hv
    · rw [if_neg hb]
      have heq : ∀ k, rowHits x0 y (cols + 1) byte k ↔ rowHits x0 y cols byte k := fun k => by
        rw [rowHits_succ byte k hlt]
        exact ⟨fun hh => hh.resolve_right (fun hh => hb hh.1), Or.inl⟩
      simp only [heq]
      exact ⟨ihc, ihv⟩

theorem drawRow_eq (x0 y : Nat) (byte : Byte) (acc : List Host.Cell × Bool) :
    drawRow x0 y byte acc = drawBits x0 y (min 8 (64 - x0)) byte acc := rfl

/-- Cells beyond the right edge are not cells of the row: clipping the count of bits clips nothing else. -/
theorem rowHits_min {x0 y : Nat} (byte : Byte) (k : Nat) : rowHits x0 y (min 8 (64 - x0)) byte k ↔ rowHits x0 y 8 byte k := by
  unfold rowHits
  constructor
  · rintro ⟨h1, h2, h3, h4⟩
    exact ⟨h1, h2, by omega, h4⟩
  · rintro ⟨h1, h2, h3, h4⟩
    exact ⟨h1, h2, by omega, h4⟩

theorem drawRow_spec (x0 y : Nat) (byte : Byte) (acc : List Host.Cell × Bool) :
    (∀ k, (rowHits x0 y 8 byte k →
        Framebuffer.read (drawRow x0 y byte acc).1 k = Framebuffer.read acc.1 k ^^^ 0xFF#8) ∧
      (¬ rowHits x0 y 8 byte k →
        Framebuffer.read (drawRow x0 y byte acc).1 k = Framebuffer.read acc.1 k)) ∧
    ((drawRow x0 y byte acc).2 = true ↔
      acc.2 = true ∨ ∃ k, rowHits x0 y 8 byte k ∧ Framebuffer.read acc.1 k = 0xFF#8) := by
  have := drawBits_spec x0 y (min 8 (64 - x0)) byte acc (Nat.min_le_right _ _)
  simpa only [drawRow_eq, rowHits_min] using this

theorem State.drawSprite_succ (s : State) (x0 y0 base rows : Nat) :
    s.drawSprite x0 y0 base (rows + 1) =
      drawRow x0 (y0 + rows) (s.readByte (base + rows)) (s.drawSprite x0 y0 base rows) := by
  simp [State.drawSprite, List.range_succ]

theorem State.spriteHits_succ (s : State) (x0 y0 base rows k : Nat) :
    s.spriteHits x0 y0 base (rows + 1) k ↔
      s.spriteHits x0 y0 base rows k ∨ rowHits x0 (y0 + rows) 8 (s.readByte (base + rows)) k := by
  unfold State.spriteHits
  constructor
  · rintro ⟨h1, h2, h3⟩
    by_cases hr : k / 64 = y0 + rows
    · right
      rwa [hr, Nat.add_sub_cancel_left] at h3
    · exact Or.inl ⟨h1, by omega, h3⟩
  · rintro (⟨h1, h2, h3⟩ | h3)
    · exact ⟨h1, by omega, h3⟩
    · have hr : k / 64 = y0 + rows := h3.1
      refine ⟨by omega, by omega, ?_⟩
      rwa [hr, Nat.add_sub_cancel_left]

/-- What the sprite loop does: the cells under set bits are inverted, no other cell changes, and the collision is that one
of those cells was on before (R143 (a), (b)). -/
theorem State.drawSprite_spec (s : State) (x0 y0 base rows : Nat) :
    (∀ k, (s.spriteHits x0 y0 base rows k →
        Framebuffer.read (s.drawSprite x0 y0 base rows).1 k = Framebuffer.read s.fb k ^^^ 0xFF#8) ∧
      (¬ s.spriteHits x0 y0 base rows k →
        Framebuffer.read (s.drawSprite x0 y0 base rows).1 k = Framebuffer.read s.fb k)) ∧
    ((s.drawSprite x0 y0 base rows).2 = true ↔
      ∃ k, s.spriteHits x0 y0 base rows k ∧ Framebuffer.read s.fb k = 0xFF#8) := by
  induction rows with
  | zero =>
    have hno : ∀ k, ¬ s.spriteHits x0 y0 base 0 k := fun k hk => by
      obtain ⟨h1, h2, -⟩ := hk
      omega
    refine ⟨fun k => ⟨fun hk => absurd hk (hno k), fun _ => rfl⟩, ?_⟩
    simp [State.drawSprite, hno]
  | succ rows ih =>
    obtain ⟨ihc, ihv⟩ := ih
    obtain ⟨hc, hv⟩ := drawRow_spec x0 (y0 + rows) (s.readByte (base + rows)) (s.drawSprite x0 y0 base rows)
    have hdisj : ∀ k, rowHits x0 (y0 + rows) 8 (s.readByte (base + rows)) k → ¬ s.spriteHits x0 y0 base rows k := by
      rintro k ⟨h1, -⟩ ⟨-, h2, -⟩
      omega
    rw [State.drawSprite_succ]
    refine ⟨fun k => ⟨fun hk => ?_, fun hk => ?_⟩, ?_⟩
    · rcases (s.spriteHits_succ x0 y0 base rows k).mp hk with hk | hk
      · rw [(hc k).2 (fun hh => hdisj k hh hk), (ihc k).1 hk]
      · rw [(hc k).1 hk, (ihc k).2 (hdisj k hk)]
    · have hk' := fun hh => hk ((s.spriteHits_succ x0 y0 base rows k).mpr hh)
      rw [(hc k).2 (fun hh => hk' (Or.inr hh)), (ihc k).2 (fun hh => hk' (Or.inl hh))]
    · rw [hv, ihv]
      constructor
      · rintro (⟨k, hk, h⟩ | ⟨k, hk, h⟩)
        · exact ⟨k, (s.spriteHits_succ x0 y0 base rows k).mpr (Or.inl hk), h⟩
        · rw [(ihc k).2 (hdisj k hk)] at h
          exact ⟨k, (s.spriteHits_succ x0 y0 base rows k).mpr (Or.inr hk), h⟩
      · rintro ⟨k, hk, h⟩
        rcases (s.spriteHits_succ x0 y0 base rows k).mp hk with hk | hk
        · exact Or.inl ⟨k, hk, h⟩
        · exact Or.inr ⟨k, hk, by rw [(ihc k).2 (hdisj k hk)]; exact h⟩

/-- Drawing keeps the framebuffer's canonical form where the rows drawn are rows of the screen. -/
theorem drawBits_wf {x0 y cols : Nat} (byte : Byte) {acc : List Host.Cell × Bool} (h : Framebuffer.wf acc.1)
    (hc : cols ≤ 64 - x0) (hy : y < 32) : Framebuffer.wf (drawBits x0 y cols byte acc).1 := by
  induction cols with
  | zero => exact h
  | succ cols ih =>
    rw [drawBits_succ]
    split
    · refine Framebuffer.wf_write (ih (by omega)) ?_ _
      show y * 64 + (x0 + cols) < 2048
      omega
    · exact ih (by omega)

theorem State.drawSprite_wf {s : State} (h : Framebuffer.wf s.fb) (x0 base : Nat) {y0 rows : Nat} (hr : rows ≤ 32 - y0) :
    Framebuffer.wf (s.drawSprite x0 y0 base rows).1 := by
  induction rows with
  | zero => exact h
  | succ rows ih =>
    rw [State.drawSprite_succ, drawRow_eq]
    exact drawBits_wf _ (ih (by omega)) (Nat.min_le_right _ _) (by omega)

end Sys2Proof.Machine
end

