-- ==== Sys2Proof/Laws/PerInstr.lean ====
section
/-! SUPPORT. Per instruction: its encoding is of its own row of the opcode map (spec/30_encoding.md R75). -/

namespace Sys2Proof

/-- ANDing two words of format A ANDs their fields. -/
theorem and_wordA (a b : Nibble) (m n : Imm12) : wordA a m &&& wordA b n = wordA (a &&& b) (m &&& n) := by
  ext j hj
  simp only [wordA, BitVec.getElem_and, BitVec.getElem_cast, BitVec.getElem_append]
  split <;> rfl

/-- ANDing two words of format XK ANDs their fields. -/
theorem and_wordXK (a b x z : Nibble) (m n : Byte) :
    wordXK a x m &&& wordXK b z n = wordXK (a &&& b) (x &&& z) (m &&& n) := by
  ext j hj
  simp only [wordXK, BitVec.getElem_and, BitVec.getElem_cast, BitVec.getElem_append]
  split
  · rfl
  · split <;> rfl

/-- ANDing two words of format XYN ANDs their fields. -/
theorem and_wordXYN (a b x z y u m n : Nibble) :
    wordXYN a x y m &&& wordXYN b z u n = wordXYN (a &&& b) (x &&& z) (y &&& u) (m &&& n) := by
  ext j hj
  simp only [wordXYN, BitVec.getElem_and, BitVec.getElem_cast, BitVec.getElem_append]
  split
  · rfl
  · split
    · rfl
    · split <;> rfl

/-- A word of format A is of every row that fixes its family. -/
theorem fits_wordA (op : Nibble) (nnn : Imm12) : (OpcodeRow.mk 0xF000 (wordA op 0)).fits (wordA op nnn) = true := by
  have h : (0xF000#16 : Word) = wordA 0xF#4 0 := by decide
  have hop : op &&& 0xF#4 = op := BitVec.and_allOnes
  simp [OpcodeRow.fits, h, and_wordA, hop]

/-- A word of format XK is of every row that fixes its family. -/
theorem fits_wordXK (op : Nibble) (x : Reg) (kk : Byte) :
    (OpcodeRow.mk 0xF000 (wordXK op 0 0)).fits (wordXK op x kk) = true := by
  have h : (0xF000#16 : Word) = wordXK 0xF#4 0 0 := by decide
  have hop : op &&& 0xF#4 = op := BitVec.and_allOnes
  simp [OpcodeRow.fits, h, and_wordXK, hop]

/-- A word of format XF is of every row that fixes its family and its low byte. -/
theorem fits_wordXF (op : Nibble) (x : Reg) (kk : Byte) :
    (OpcodeRow.mk 0xF0FF (wordXK op 0 kk)).fits (wordXK op x kk) = true := by
  have h : (0xF0FF#16 : Word) = wordXK 0xF#4 0 0xFF#8 := by decide
  have hop : op &&& 0xF#4 = op := BitVec.and_allOnes
  have hkk : kk &&& 0xFF#8 = kk := BitVec.and_allOnes
  simp [OpcodeRow.fits, h, and_wordXK, hop, hkk]

/-- A word of format XYN is of every row that fixes its family. -/
theorem fits_wordXYN (op : Nibble) (x y : Reg) (n : Nibble) :
    (OpcodeRow.mk 0xF000 (wordXYN op 0 0 0)).fits (wordXYN op x y n) = true := by
  have h : (0xF000#16 : Word) = wordXYN 0xF#4 0 0 0 := by decide
  have hop : op &&& 0xF#4 = op := BitVec.and_allOnes
  simp [OpcodeRow.fits, h, and_wordXYN, hop]

/-- A word of format XY is of every row that fixes its family and its low nibble. -/
theorem fits_wordXY (op : Nibble) (x y : Reg) (n : Nibble) :
    (OpcodeRow.mk 0xF00F (wordXYN op 0 0 n)).fits (wordXYN op x y n) = true := by
  have h : (0xF00F#16 : Word) = wordXYN 0xF#4 0 0 0xF#4 := by decide
  have hop : ∀ a : Nibble, a &&& 0xF#4 = a := fun _ => BitVec.and_allOnes
  simp [OpcodeRow.fits, h, and_wordXYN, hop]

end Sys2Proof

namespace Sys2Proof.Laws.EncodingRow

/-- The instruction's row stands in the opcode map, and its encoding is of that row. -/
def Statement (i : Instr) : Prop := i.row ∈ opcodeRows ∧ i.row.fits (encode i) = true

theorem cls : Statement .cls :=
  ⟨by decide, by decide⟩

theorem ret : Statement .ret :=
  ⟨by decide, by decide⟩

theorem jp (nnn : Imm12) : Statement (.jp nnn) :=
  ⟨by simp only [Instr.row]; decide, fits_wordA 0x1#4 nnn⟩

theorem call (nnn : Imm12) : Statement (.call nnn) :=
  ⟨by simp only [Instr.row]; decide, fits_wordA 0x2#4 nnn⟩

theorem seImm (x : Reg) (kk : Byte) : Statement (.seImm x kk) :=
  ⟨by simp only [Instr.row]; decide, fits_wordXK 0x3#4 x kk⟩

theorem sneImm (x : Reg) (kk : Byte) : Statement (.sneImm x kk) :=
  ⟨by simp only [Instr.row]; decide, fits_wordXK 0x4#4 x kk⟩

theorem seReg (x y : Reg) : Statement (.seReg x y) :=
  ⟨by simp only [Instr.row]; decide, fits_wordXY 0x5#4 x y 0x0#4⟩

theorem ldImm (x : Reg) (kk : Byte) : Statement (.ldImm x kk) :=
  ⟨by simp only [Instr.row]; decide, fits_wordXK 0x6#4 x kk⟩

theorem addImm (x : Reg) (kk : Byte) : Statement (.addImm x kk) :=
  ⟨by simp only [Instr.row]; decide, fits_wordXK 0x7#4 x kk⟩

theorem ldReg (x y : Reg) : Statement (.ldReg x y) :=
  ⟨by simp only [Instr.row]; decide, fits_wordXY 0x8#4 x y 0x0#4⟩

theorem orReg (x y : Reg) : Statement (.orReg x y) :=
  ⟨by simp only [Instr.row]; decide, fits_wordXY 0x8#4 x y 0x1#4⟩

theorem andReg (x y : Reg) : Statement (.andReg x y) :=
  ⟨by simp only [Instr.row]; decide, fits_wordXY 0x8#4 x y 0x2#4⟩

theorem xorReg (x y : Reg) : Statement (.xorReg x y) :=
  ⟨by simp only [Instr.row]; decide, fits_wordXY 0x8#4 x y 0x3#4⟩

theorem addReg (x y : Reg) : Statement (.addReg x y) :=
  ⟨by simp only [Instr.row]; decide, fits_wordXY 0x8#4 x y 0x4#4⟩

theorem sub (x y : Reg) : Statement (.sub x y) :=
  ⟨by simp only [Instr.row]; decide, fits_wordXY 0x8#4 x y 0x5#4⟩

theorem shr (x y : Reg) : Statement (.shr x y) :=
  ⟨by simp only [Instr.row]; decide, fits_wordXY 0x8#4 x y 0x6#4⟩

theorem subn (x y : Reg) : Statement (.subn x y) :=
  ⟨by simp only [Instr.row]; decide, fits_wordXY 0x8#4 x y 0x7#4⟩

theorem shl (x y : Reg) : Statement (.shl x y) :=
  ⟨by simp only [Instr.row]; decide, fits_wordXY 0x8#4 x y 0xE#4⟩

theorem sneReg (x y : Reg) : Statement (.sneReg x y) :=
  ⟨by simp only [Instr.row]; decide, fits_wordXY 0x9#4 x y 0x0#4⟩

theorem ldI (nnn : Imm12) : Statement (.ldI nnn) :=
  ⟨by simp only [Instr.row]; decide, fits_wordA 0xA#4 nnn⟩

theorem jpV0 (nnn : Imm12) : Statement (.jpV0 nnn) :=
  ⟨by simp only [Instr.row]; decide, fits_wordA 0xB#4 nnn⟩

theorem rnd (x : Reg) (kk : Byte) : Statement (.rnd x kk) :=
  ⟨by simp only [Instr.row]; decide, fits_wordXK 0xC#4 x kk⟩

theorem drw (x y : Reg) (n : Nibble) : Statement (.drw x y n) :=
  ⟨by simp only [Instr.row]; decide, fits_wordXYN 0xD#4 x y n⟩

theorem skp (x : Reg) : Statement (.skp x) :=
  ⟨by simp only [Instr.row]; decide, fits_wordXF 0xE#4 x 0x9E#8⟩

theorem sknp (x : Reg) : Statement (.sknp x) :=
  ⟨by simp only [Instr.row]; decide, fits_wordXF 0xE#4 x 0xA1#8⟩

theorem ldVxDt (x : Reg) : Statement (.ldVxDt x) :=
  ⟨by simp only [Instr.row]; decide, fits_wordXF 0xF#4 x 0x07#8⟩

theorem ldVxK (x : Reg) : Statement (.ldVxK x) :=
  ⟨by simp only [Instr.row]; decide, fits_wordXF 0xF#4 x 0x0A#8⟩

theorem ldDtVx (x : Reg) : Statement (.ldDtVx x) :=
  ⟨by simp only [Instr.row]; decide, fits_wordXF 0xF#4 x 0x15#8⟩

theorem ldStVx (x : Reg) : Statement (.ldStVx x) :=
  ⟨by simp only [Instr.row]; decide, fits_wordXF 0xF#4 x 0x18#8⟩

theorem addI (x : Reg) : Statement (.addI x) :=
  ⟨by simp only [Instr.row]; decide, fits_wordXF 0xF#4 x 0x1E#8⟩

theorem ldF (x : Reg) : Statement (.ldF x) :=
  ⟨by simp only [Instr.row]; decide, fits_wordXF 0xF#4 x 0x29#8⟩

theorem ldB (x : Reg) : Statement (.ldB x) :=
  ⟨by simp only [Instr.row]; decide, fits_wordXF 0xF#4 x 0x33#8⟩

theorem ldMemVx (x : Reg) : Statement (.ldMemVx x) :=
  ⟨by simp only [Instr.row]; decide, fits_wordXF 0xF#4 x 0x55#8⟩

theorem ldVxMem (x : Reg) : Statement (.ldVxMem x) :=
  ⟨by simp only [Instr.row]; decide, fits_wordXF 0xF#4 x 0x65#8⟩

end Sys2Proof.Laws.EncodingRow
end

