-- ==== Sys2Proof/Laws/Step.lean ====
section
/-! SUPPORT. What a step can do, said once: a next state comes from a decoded instruction, a fault from the fetch, from the
decoder or from the instruction. -/

namespace Sys2Proof.Machine

/-- A step that answers a next state fetched inside memory, and the instruction it decoded answered that state. -/
theorem step_next {s t : State} (h : step s = .next t) :
    ∃ (w : Word) (i : Instr), s.fetch = .opcode w ∧ decode w = .instr i ∧ s.pc.toNat ≤ 4094 ∧ exec i s = .next t := by
  unfold step at h
  split at h
  · cases h
  · rename_i w hw
    split at h
    · rename_i i hi
      exact ⟨w, i, hw, hi, State.pc_le_of_fetch hw, h⟩
    · cases h

/-- A step that faults faulted in the fetch, or decoded nothing, or the instruction it decoded faulted. -/
theorem step_fault {s : State} {f : Fault} (h : step s = .fault f) :
    (∃ a : Nat, s.fetch = .outside a ∧ f = .addressFault a) ∨
      (∃ w v : Word, s.fetch = .opcode w ∧ decode w = .illegal v ∧ f = .decodeFault v) ∨
      ∃ (w : Word) (i : Instr), s.fetch = .opcode w ∧ decode w = .instr i ∧ exec i s = .fault f := by
  unfold step at h
  split at h
  · rename_i a ha
    injection h with h
    exact .inl ⟨a, ha, h.symm⟩
  · rename_i w hw
    split at h
    · rename_i i hi
      exact .inr (.inr ⟨w, i, hw, hi, h⟩)
    · rename_i v hv
      injection h with h
      exact .inr (.inl ⟨w, v, hw, hv, h.symm⟩)

end Sys2Proof.Machine
end

