-- ==== Sys2Proof/Tests/Slice0.lean ====
section
/-! SUPPORT. The model's own tests: well-formedness, decoding, one step of each instruction with expected values from
spec/95_test_vectors.md (named S<n>, T<n>), and a witness for each statement that has hypotheses. -/

namespace Sys2Proof.Tests

open Sys2Proof Sys2Proof.Machine

/-! ## Helpers -/

/-- The outcome is a next state with this property. -/
def nextHas (o : StepOutcome) (p : State → Bool) : Bool :=
  match o with
  | .next t => p t
  | .fault _ => false
  | .refused _ => false

/-- The outcome is this fault. -/
def faultIs (o : StepOutcome) (f : Fault) : Bool :=
  match o with
  | .next _ => false
  | .fault g => g == f
  | .refused _ => false

/-- One STEP of s with the opcode placed at pc leads to a next state with this property. -/
def stepHas (s : State) (opcode : Nat) (p : State → Bool) : Bool := nextHas (step (s.withFetchWord 16 opcode)) p

/-- One STEP of s with the opcode placed at pc raises this fault. -/
def stepFaults (s : State) (opcode : Nat) (f : Fault) : Bool := faultIs (step (s.withFetchWord 16 opcode)) f

/-- The reset state with V[1] = a, V[2] = b and VF = f. -/
def operands (a b f : Byte) : State := ((State.reset.setReg 1 a).setReg 2 b).setReg 0xF f

/-- V[1] and VF after the step are these, and pc is 0x0202. -/
def resultIs (a f : Byte) (t : State) : Bool := t.reg 1 == a && t.reg 0xF == f && t.pc == 0x0202

/-- The reset state with sprite bytes at I = 0x300, V[0] = x0 and V[1] = y0. -/
def canvas (x0 y0 : Byte) (sprite : List Byte) : State :=
  (((State.reset.setReg 0 x0).setReg 1 y0).setI 0x0300).storeBytes 0x300 sprite

/-- The reset state with n return addresses of 0x0206 saved. -/
def nested (n : Fin 17) : State := State.reset.setStack (Vector.replicate 16 0x0206) n

/-! ## Well-formedness -/

theorem test_wellFormed_refuses_family_zero :
    wellFormedWord 0x01E0 = false ∧ wellFormedWord 0x00EF = false ∧ wellFormedWord 0x0000 = false := by decide
theorem test_wellFormed_refuses_low_nibble_of_skip : wellFormedWord 0x5121 = false ∧ wellFormedWord 0x9AB5 = false := by
  decide
theorem test_wellFormed_refuses_family_eight :
    [0x8128, 0x8129, 0x812A, 0x812B, 0x812C, 0x812D, 0x812F].all (fun w => !wellFormedWord w) = true := by decide
theorem test_wellFormed_refuses_family_e :
    wellFormedWord 0xE000 = false ∧ wellFormedWord 0xE19F = false ∧ wellFormedWord 0xE2A0 = false := by decide
theorem test_wellFormed_refuses_family_f :
    [0xF000, 0xF0FF, 0xF175, 0xF185, 0xF130].all (fun w => !wellFormedWord w) = true := by decide
theorem test_wellFormed_accepts_ignored_y : wellFormedWord 0x8AB6 = true ∧ wellFormedWord 0x8ABE = true := by decide
theorem test_wellFormed_image_limit :
    wellFormedImage (List.replicate 3584 0xAA) = true ∧ wellFormedImage (List.replicate 3585 0xAA) = false := by
  simp only [wellFormedImage, List.length_replicate]
  decide

/-! ## Decoding: each constructor's word written out bit by bit from spec/30_encoding.md R75 -/

theorem test_decode_flow :
    decode 0b0000000011101110#16 = .instr .ret ∧
    decode 0b0001101010111100#16 = .instr (.jp 0xABC) ∧
    decode 0b0010001000010000#16 = .instr (.call 0x210) ∧
    decode 0b0011001100101010#16 = .instr (.seImm 0x3 0x2A) ∧
    decode 0b0100001100101011#16 = .instr (.sneImm 0x3 0x2B) ∧
    decode 0b0101000100100000#16 = .instr (.seReg 0x1 0x2) ∧
    decode 0b1001000100100000#16 = .instr (.sneReg 0x1 0x2) ∧
    decode 0b1011001100000001#16 = .instr (.jpV0 0x301) := by decide
theorem test_decode_load_and_add :
    decode 0b0110101001111111#16 = .instr (.ldImm 0xA 0x7F) ∧
    decode 0b0111000101100100#16 = .instr (.addImm 0x1 0x64) ∧
    decode 0b1100001100001111#16 = .instr (.rnd 0x3 0x0F) := by decide
theorem test_decode_family_eight :
    decode 0b1000000100100000#16 = .instr (.ldReg 0x1 0x2) ∧
    decode 0b1000000100100001#16 = .instr (.orReg 0x1 0x2) ∧
    decode 0b1000000100100010#16 = .instr (.andReg 0x1 0x2) ∧
    decode 0b1000000100100011#16 = .instr (.xorReg 0x1 0x2) ∧
    decode 0b1000000100100100#16 = .instr (.addReg 0x1 0x2) ∧
    decode 0b1000000100100101#16 = .instr (.sub 0x1 0x2) ∧
    decode 0b1000101010110110#16 = .instr (.shr 0xA 0xB) ∧
    decode 0b1000000100100111#16 = .instr (.subn 0x1 0x2) ∧
    decode 0b1000000100101110#16 = .instr (.shl 0x1 0x2) := by decide
theorem test_decode_index_and_memory :
    decode 0b1010001011110000#16 = .instr (.ldI 0x2F0) ∧
    decode 0b1111000100011110#16 = .instr (.addI 0x1) ∧
    decode 0b1111001000101001#16 = .instr (.ldF 0x2) ∧
    decode 0b1111010000110011#16 = .instr (.ldB 0x4) ∧
    decode 0b1111001001010101#16 = .instr (.ldMemVx 0x2) ∧
    decode 0b1111001001100101#16 = .instr (.ldVxMem 0x2) := by decide
theorem test_decode_display :
    decode 0b0000000011100000#16 = .instr .cls ∧ decode 0b1101000100100101#16 = .instr (.drw 0x1 0x2 0x5) := by decide
theorem test_decode_keypad_and_timers :
    decode 0b1110001010011110#16 = .instr (.skp 0x2) ∧
    decode 0b1110001010100001#16 = .instr (.sknp 0x2) ∧
    decode 0b1111010000000111#16 = .instr (.ldVxDt 0x4) ∧
    decode 0b1111001100001010#16 = .instr (.ldVxK 0x3) ∧
    decode 0b1111010000010101#16 = .instr (.ldDtVx 0x4) ∧
    decode 0b1111010000011000#16 = .instr (.ldStVx 0x4) := by decide
/-- The boundary between the families and the neighbours of legal encodings (T3 to T9). -/
theorem test_decode_rejects_by_name :
    [0x01E0, 0x00EF, 0x0000, 0x5121, 0x9AB5, 0x8128, 0x812D, 0x812F, 0xE000, 0xE19F, 0xF000, 0xF0FF, 0xF130].all
      (fun w => decode w == .illegal w) = true := by decide
theorem test_decodeBytes_is_total :
    decodeBytes [] = .truncated ∧ decodeBytes [0x6A] = .truncated ∧
    decodeBytes [0x6A, 0x7F, 0x12] = .word (.instr (.ldImm 0xA 0x7F)) [0x12] := by decide
theorem test_encodeBytes_high_byte_first : encodeBytes (.drw 0x1 0x2 0x5) = [0xD1, 0x25] := by decide
theorem test_decodeTableWord :
    decodeTableWord 16 0xD125 = some (.drw 0x1 0x2 0x5) ∧ decodeTableWord 16 0x5121 = none := by decide

/-- Lines of the programs P3, P4, P8 of spec/95_test_vectors.md. -/
theorem test_assembly :
    assembly (.ldI 0x300) = "LD I, 0x300" ∧ assembly (.ldB 0) = "LD B, V0" ∧ assembly (.ldVxMem 2) = "LD V2, [I]" ∧
    assembly (.drw 1 2 5) = "DRW V1, V2, 0x5" ∧ assembly (.jp 0x20A) = "JP 0x20A" ∧
    assembly (.shr 0xA 0x0) = "SHR VA" ∧ assembly (.shr 0xA 0xB) = "SHR VA, VB" := by decide

/-! ## Fetch and STEP -/

/-- T1, and the bytes stand in memory high byte first. -/
theorem test_fetch_is_big_endian :
    (State.reset.withFetchWord 16 0x6A7F).readByte 0x200 = 0x6A ∧
    (State.reset.withFetchWord 16 0x6A7F).readByte 0x201 = 0x7F ∧
    (State.reset.withFetchWord 16 0x6A7F).fetch = .opcode 0x6A7F := by decide
/-- T2, T98. -/
theorem test_step_of_empty_image : faultIs (step State.reset) (.decodeFault 0x0000) = true := by decide
/-- T3, T5. -/
theorem test_step_of_illegal_opcode :
    stepFaults State.reset 0x01E0 (.decodeFault 0x01E0) = true ∧
    stepFaults State.reset 0x5121 (.decodeFault 0x5121) = true := by decide
/-- T9a: the last legal fetch address. -/
theorem test_fetch_at_last_address :
    stepHas (State.reset.setPc 0x0FFE) 0x1200 (fun t => t.pc == 0x0200) = true := by decide
/-- T9b, T9c, T9d. -/
theorem test_fetch_outside_memory :
    faultIs (step (State.reset.setPc 0x0FFF)) (.addressFault 4096) = true ∧
    faultIs (step (State.reset.setPc 0x1000)) (.addressFault 4096) = true ∧
    faultIs (step (State.reset.setPc 0x10FE)) (.addressFault 0x10FE) = true := by decide
/-- T9e: an odd pc is no fault. -/
theorem test_fetch_at_odd_address :
    stepHas (State.reset.setPc 0x0201) 0x6012 (fun t => t.reg 0 == 0x12 && t.pc == 0x0203) = true := by decide
theorem test_withFetchWord_where_nothing_can_be_fetched :
    stepHas (State.reset.setPc 0x0FFF) 0x6A7F (fun t => t.reg 0xA == 0x7F && t.pc == 0x0202) = true := by decide

/-! ## Control transfer and skips -/

/-- T21. -/
theorem test_jp : stepHas State.reset 0x1ABC (fun t => t.pc == 0x0ABC) = true := by decide
/-- T25, T27: the register is V[0]. -/
theorem test_jpV0_uses_register_zero :
    stepHas ((State.reset.setReg 0 0x04).setReg 3 0x55) 0xB300 (fun t => t.pc == 0x0304) = true := by decide
/-- T26. -/
theorem test_jpV0_is_not_reduced : stepHas (State.reset.setReg 0 0xFF) 0xBFFF (fun t => t.pc == 0x10FE) = true := by decide
/-- T28. -/
theorem test_call :
    stepHas (State.reset.setPc 0x0206) 0x2210
      (fun t => t.stack[0] == 0x0206 && t.sp == 1 && t.pc == 0x0210) = true := by decide
/-- T31, T32. -/
theorem test_call_at_last_slot :
    stepHas (nested 15) 0x2300 (fun t => t.stack[15] == 0x0200 && t.sp == 16 && t.pc == 0x0300) = true ∧
    stepFaults (nested 16) 0x2300 (.stackFault .overflow 0x2300) = true := by decide
/-- T29: the slot keeps its value. -/
theorem test_ret :
    stepHas ((nested 1).setPc 0x0212) 0x00EE
      (fun t => t.sp == 0 && t.pc == 0x0208 && t.stack[0] == 0x0206) = true := by decide
/-- T30. -/
theorem test_ret_underflow : stepFaults State.reset 0x00EE (.stackFault .underflow 0x00EE) = true := by decide
/-- T10, T11. -/
theorem test_seImm :
    stepHas (State.reset.setReg 3 0x2A) 0x332A (fun t => t.pc == 0x0204) = true ∧
    stepHas (State.reset.setReg 3 0x2A) 0x332B (fun t => t.pc == 0x0202) = true := by decide
/-- T12, T13. -/
theorem test_sneImm :
    stepHas (State.reset.setReg 3 0x2A) 0x432A (fun t => t.pc == 0x0202) = true ∧
    stepHas (State.reset.setReg 3 0x2A) 0x432B (fun t => t.pc == 0x0204) = true := by decide
/-- T14, T15. -/
theorem test_seReg :
    stepHas (operands 7 7 0) 0x5120 (fun t => t.pc == 0x0204) = true ∧
    stepHas (operands 7 8 0) 0x5120 (fun t => t.pc == 0x0202) = true := by decide
/-- T16, T17. -/
theorem test_sneReg :
    stepHas (operands 7 8 0) 0x9120 (fun t => t.pc == 0x0204) = true ∧
    stepHas (operands 7 7 0) 0x9120 (fun t => t.pc == 0x0202) = true := by decide

/-! ## Register load, arithmetic, logic, shift, random -/

/-- T40. -/
theorem test_ldImm : stepHas State.reset 0x6A7F (fun t => t.reg 0xA == 0x7F && t.pc == 0x0202) = true := by decide
/-- T42. -/
theorem test_addImm_wraps : stepHas (operands 0xC8 0 0) 0x7164 (resultIs 0x2C 0) = true := by decide
/-- T43, from VF = 1. -/
theorem test_addImm_leaves_flag : stepHas (operands 0xFF 0 1) 0x7101 (resultIs 0x00 1) = true := by decide
/-- T44. -/
theorem test_ldReg : stepHas (operands 0 0x33 0) 0x8120 (resultIs 0x33 0) = true := by decide
/-- T45. -/
theorem test_orReg : stepHas (operands 0xF0 0x0F 1) 0x8121 (resultIs 0xFF 1) = true := by decide
/-- T46. -/
theorem test_andReg : stepHas (operands 0xF0 0x3C 1) 0x8122 (resultIs 0x30 1) = true := by decide
/-- T47. -/
theorem test_xorReg : stepHas (operands 0xF0 0x3C 1) 0x8123 (resultIs 0xCC 1) = true := by decide
/-- S2, T51, T52. -/
theorem test_addReg :
    stepHas (operands 250 10 0) 0x8124 (resultIs 4 1) = true ∧
    stepHas (operands 0xFF 0x01 0) 0x8124 (resultIs 0x00 1) = true ∧
    stepHas (operands 0xFE 0x01 1) 0x8124 (resultIs 0xFF 0) = true := by decide
/-- T54, T55, T56: X or Y is 0xF. -/
theorem test_addReg_with_flag_register :
    stepHas (operands 0 0x20 0xF0) 0x8F24 (resultIs 0 1) = true ∧
    stepHas (operands 0 0x20 0x10) 0x8F24 (resultIs 0 0) = true ∧
    stepHas (operands 0xF0 0 0x20) 0x81F4 (resultIs 0x10 1) = true := by decide
/-- S3, T59. -/
theorem test_sub :
    stepHas (operands 5 10 0) 0x8125 (resultIs 251 0) = true ∧
    stepHas (operands 10 5 0) 0x8125 (resultIs 5 1) = true ∧
    stepHas (operands 7 7 0) 0x8125 (resultIs 0 1) = true := by decide
/-- T59b. -/
theorem test_sub_with_flag_register : stepHas (operands 0 10 5) 0x8F25 (resultIs 0 0) = true := by decide
/-- T59c, T59d: V[2] is irrelevant. -/
theorem test_shr :
    stepHas (operands 0x05 0 0) 0x8106 (resultIs 0x02 1) = true ∧
    stepHas (operands 0x04 0xFF 1) 0x8126 (resultIs 0x02 0) = true := by decide
/-- T59g. -/
theorem test_shr_of_flag_register : stepHas (operands 0 0 0x02) 0x8F06 (resultIs 0 0) = true := by decide
/-- T59h, T59i, T59j. -/
theorem test_subn :
    stepHas (operands 10 5 0) 0x8127 (resultIs 251 0) = true ∧
    stepHas (operands 5 10 0) 0x8127 (resultIs 5 1) = true ∧
    stepHas (operands 9 9 0) 0x8127 (resultIs 0 1) = true := by decide
/-- T59k, T59l. -/
theorem test_shl :
    stepHas (operands 0x81 0 0) 0x810E (resultIs 0x02 1) = true ∧
    stepHas (operands 0x40 0xFF 1) 0x812E (resultIs 0x80 0) = true := by decide
/-- T59n. -/
theorem test_shl_of_flag_register : stepHas (operands 0 0 0x81) 0x8F0E (resultIs 0 1) = true := by decide
/-- T59p: the mask 0 whatever the random byte is, and one byte is taken. -/
theorem test_rnd_masked_away (s : State) :
    nextHas (exec (.rnd 0x3 0x00) s) (fun t => t.reg 0x3 == 0x00 && t.draws == s.draws + 1) = true := by
  simp [nextHas, exec, execRnd, done, State.advance, State.setPc, State.countDraw, State.setReg, State.reg]

/-! ## Address register and memory transfers -/

/-- T70. -/
theorem test_ldI : stepHas State.reset 0xA2F0 (fun t => t.i == 0x02F0 && t.pc == 0x0202) = true := by decide
/-- T72, T73 from VF = 1. -/
theorem test_addI :
    stepHas ((operands 0x01 0 0).setI 0x0FFF) 0xF11E (fun t => t.i == 0x1000 && t.reg 0xF == 0) = true ∧
    stepHas ((operands 0x01 0 1).setI 0xFFFF) 0xF11E (fun t => t.i == 0x0000 && t.reg 0xF == 1) = true := by decide
/-- T74, T75. -/
theorem test_ldF :
    stepHas (operands 0 0x0A 0) 0xF229 (fun t => t.i == 0x0032) = true ∧
    stepHas (operands 0 0xFF 0) 0xF229 (fun t => t.i == 0x04FB) = true := by decide
/-- S8, T82. -/
theorem test_ldB :
    stepHas ((State.reset.setReg 0 255).setI 0x0300) 0xF033
      (fun t => [0x300, 0x301, 0x302].map t.readByte == [2, 5, 5] && t.i == 0x0300 && t.pc == 0x0202) = true ∧
    stepHas ((State.reset.setReg 0 123).setI 0x0FFD) 0xF033
      (fun t => [0xFFD, 0xFFE, 0xFFF].map t.readByte == [1, 2, 3]) = true := by decide
/-- T83, T85. -/
theorem test_ldB_outside_memory :
    stepFaults ((State.reset.setReg 0 123).setI 0x0FFE) 0xF033 (.addressFault 4096) = true ∧
    stepFaults (State.reset.setI 0x1234) 0xF033 (.addressFault 0x1234) = true := by decide
/-- T86. -/
theorem test_ldMemVx :
    stepHas ((((State.reset.setReg 0 0x11).setReg 1 0x22).setReg 2 0x33).setI 0x0300) 0xF255
      (fun t => [0x300, 0x301, 0x302, 0x303].map t.readByte == [0x11, 0x22, 0x33, 0x00] && t.i == 0x0300) = true := by
  decide
/-- T89, T90: the font is not protected. -/
theorem test_ldMemVx_bounds :
    stepFaults (State.reset.setI 0x0FF1) 0xFF55 (.addressFault 4096) = true ∧
    stepHas State.reset 0xF055 (fun t => [0x000, 0x001].map t.readByte == [0x00, 0x90]) = true := by decide
/-- T92. -/
theorem test_ldVxMem :
    stepHas State.reset 0xF465
      (fun t => [0, 1, 2, 3, 4, 5].map (fun k => t.reg k) == [0xF0, 0x90, 0x90, 0x90, 0xF0, 0x00] && t.i == 0) = true := by
  decide
/-- T94, T95: code read as data. -/
theorem test_ldVxMem_bounds :
    stepFaults (State.reset.setI 0x0FFF) 0xF165 (.addressFault 4096) = true ∧
    stepHas (State.reset.setI 0x0200) 0xF165 (fun t => t.reg 0 == 0xF1 && t.reg 1 == 0x65) = true := by decide

/-! ## Display -/

/-- T69i. -/
theorem test_cls :
    stepHas ((State.reset.setFb [(0, 0xFF), (2047, 0xFF)]).setReg 0xF 1) 0x00E0
      (fun t => t.fb == [] && t.reg 0xF == 1 && t.pc == 0x0202) = true := by decide
/-- T62, T63, T67: clipping at the right and at the bottom edge, and collision. -/
theorem test_drw_clips_and_collides :
    stepHas (canvas 60 31 [0xFF, 0x81]) 0xD012
      (fun t => t.fb == [(2044, 0xFF), (2045, 0xFF), (2046, 0xFF), (2047, 0xFF)] && t.reg 0xF == 0) = true ∧
    stepHas ((canvas 60 31 [0xFF, 0x81]).setFb [(2044, 0xFF), (2045, 0xFF), (2046, 0xFF), (2047, 0xFF)]) 0xD012
      (fun t => t.fb == [] && t.reg 0xF == 1) = true ∧
    stepHas ((canvas 10 5 [0xA5]).setFb [(330, 0xFF)]) 0xD011
      (fun t => t.fb == [(332, 0xFF), (335, 0xFF), (337, 0xFF)] && t.reg 0xF == 1) = true := by decide
/-- T69a, T69c, T69e, T69f, T69h: no wrap, a clipped row is not read, the old VF is the coordinate. -/
theorem test_drw_corners :
    stepHas ((canvas 64 0 [0xFF]).setReg 0xF 1) 0xD011 (fun t => t.fb == [] && t.reg 0xF == 0) = true ∧
    stepHas ((canvas 0xFF 0xFF []).setI 0xFFFF) 0xD01F (fun t => t.fb == [] && t.reg 0xF == 0) = true ∧
    stepFaults ((canvas 0 0 []).setI 0x0FFF) 0xD012 (.addressFault 4096) = true ∧
    stepHas (((canvas 0 31 []).setI 0x0FFF).writeByte 0xFFF 0xFF) 0xD012
      (fun t => t.fb == (List.range 8).map (fun k => (1984 + k, 0xFF#8))) = true ∧
    stepHas ((canvas 0 2 [0x80]).setReg 0xF 3) 0xDF11 (fun t => t.fb == [(131, 0xFF)] && t.reg 0xF == 0) = true := by
  decide

/-! ## Keypad and timers -/

/-- T100, T101. -/
theorem test_skp :
    stepHas ((operands 0 7 0).writeKey 7 true) 0xE29E (fun t => t.pc == 0x0204) = true ∧
    stepHas (operands 0 7 0) 0xE29E (fun t => t.pc == 0x0202) = true := by decide
/-- T104, T106. -/
theorem test_skp_index_limit :
    stepFaults (operands 0 0x10 0) 0xE29E (.keyIndexFault 16) = true ∧
    stepHas ((operands 0 0x0F 0).writeKey 0xF true) 0xE29E (fun t => t.pc == 0x0204) = true := by decide
/-- T102, T103. -/
theorem test_sknp :
    stepHas (operands 0 7 0) 0xE2A1 (fun t => t.pc == 0x0204) = true ∧
    stepHas ((operands 0 7 0).writeKey 7 true) 0xE2A1 (fun t => t.pc == 0x0202) = true := by decide
/-- T105. -/
theorem test_sknp_index_limit : stepFaults (operands 0 0xFF 0) 0xE2A1 (.keyIndexFault 255) = true := by decide
/-- T107. -/
theorem test_ldVxK_polls :
    stepHas State.reset 0xF30A (fun t => t == State.reset.withFetchWord 16 0xF30A) = true := by decide
/-- T108, T110. -/
theorem test_ldVxK_takes_least :
    stepHas ((State.reset.writeKey 9 true).writeKey 7 true) 0xF30A (fun t => t.reg 3 == 7 && t.pc == 0x0202) = true ∧
    stepHas (State.reset.writeKey 0xF true) 0xFF0A (fun t => t.reg 0xF == 0x0F && t.pc == 0x0202) = true := by decide
/-- T111. -/
theorem test_ldVxDt : stepHas (State.reset.setDt 0x3C) 0xF407 (fun t => t.reg 4 == 0x3C && t.dt == 0x3C) = true := by
  decide
/-- T112. -/
theorem test_ldDtVx : stepHas (State.reset.setReg 4 0x3C) 0xF415 (fun t => t.dt == 0x3C && t.st == 0) = true := by decide
/-- T113. -/
theorem test_ldStVx : stepHas (State.reset.setReg 4 0x02) 0xF418 (fun t => t.st == 0x02 && t.dt == 0) = true := by decide

/-! ## INIT, TICK and the host's reads -/

/-- T114, T115, T116. -/
theorem test_tick :
    nextHas (perform defaultFont .tick ((State.reset.setDt 2).setSt 1)) (fun t => t.dt == 1 && t.st == 0) = true ∧
    nextHas (perform defaultFont .tick (State.reset.setDt 1)) (fun t => t.dt == 0 && t.st == 0) = true ∧
    nextHas (perform defaultFont .tick State.reset) (fun t => t == State.reset) = true := by decide
/-- T99, with another FONT than the default one at 0x000. -/
theorem test_init :
    nextHas (init (Vector.replicate 80 0x11) [0x00, 0xE0, 0x12, 0x00] 3)
      (fun t => [0x000, 0x04F, 0x050, 0x1FF, 0x200, 0x201, 0x202, 0x203, 0x204].map t.readByte ==
          [0x11, 0x11, 0x00, 0x00, 0x00, 0xE0, 0x12, 0x00, 0x00] && t.pc == 0x0200 && t.draws == 3) = true := by
  decide +kernel
/-- T97. -/
theorem test_init_too_large :
    init defaultFont (List.replicate 3585 0xAA) 0 = .fault (.loadFault .tooLarge 3585) := by
  simp only [init, wellFormedImage, raise, List.length_replicate]
  rfl
theorem test_host_reads :
    State.reset.toneOn = false ∧ (State.reset.setSt 1).toneOn = true ∧ dimensions = (64, 32) := by decide
theorem test_display_is_flat : State.reset.display.length = 2048 := by simp [State.display]

/-! ## Witnesses: a concrete state and operands for every statement that has hypotheses, one for each clause's boundary -/

theorem witness_InitInstallsFontAndImage :
    ([] : List Byte).length ≤ 3584 ∧ (List.replicate 3584 (0xAA : Byte)).length ≤ 3584 := by
  simp only [List.length_replicate]
  decide
theorem witness_InitRefusesLargeImage : 3584 < (List.replicate 3585 (0xAA : Byte)).length := by
  simp only [List.length_replicate]
  decide
/-- At the last address a fetch can use. -/
theorem witness_FetchIsBigEndian : (State.reset.setPc 0x0FFE).pc.toNat + 1 ≤ 4095 := by decide
/-- At the first address it can not, and at the largest pc. -/
theorem witness_FetchOutsideMemoryFaults :
    4095 ≤ (State.reset.setPc 0x0FFF).pc.toNat ∧ 4095 ≤ (State.reset.setPc 0xFFFF).pc.toNat := by decide
theorem witness_StepRunsDecodedInstruction :
    let s := (State.reset.setPc 0x0FFE).withFetchWord 16 0x6A7F
    s.pc.toNat + 1 ≤ 4095 ∧
      decode (opcodeOfBytes (s.readByte s.pc.toNat) (s.readByte (s.pc.toNat + 1))) = .instr (.ldImm 0xA 0x7F) := by decide
theorem witness_IllegalOpcodeFaults :
    (State.reset.withFetchWord 16 0x01E0).fetch = .opcode 0x01E0 ∧ wellFormedWord 0x01E0 = false := by decide
theorem witness_EncodeOfDecode : decode 0x8ABE#16 = .instr (.shl 0xA 0xB) := by decide
theorem witness_DecodeAgreesWithOpcodeMap :
    decode 0xF165#16 = .instr (.ldVxMem 0x1) ∧ decode 0xF166#16 = .illegal 0xF166#16 := by decide
theorem witness_OpcodeMapRowsDisjoint :
    OpcodeRow.mk 0xF0FF 0xF065 ∈ opcodeRows ∧ (OpcodeRow.mk 0xF0FF 0xF065).fits 0xF165 = true := by decide
/-- At depth 0 and at the last depth with a free slot. -/
theorem witness_CallPushesItsAddress : (nested 0).sp.val < 16 ∧ (nested 15).sp.val < 16 := by decide
/-- At depth 1 and at depth 16. -/
theorem witness_ReturnResumesAfterCall : (nested 1).sp.val = 0 + 1 ∧ (nested 16).sp.val = 15 + 1 := by decide
theorem witness_StackBoundsFault : (nested 16).sp.val = 16 ∧ (nested 0).sp.val = 0 := by decide
/-- At the last depth with a free slot; and a nested call and return in between, which leave a slot above that differs. -/
theorem witness_CallThenReturnRoundTrip :
    (nested 15).sp.val < 16 ∧ (∃ t : State, exec (.call 0x210) (nested 15) = .next t ∧ (t.setPc 0x0212).sp = t.sp ∧
        (t.setPc 0x0212).stack[15] = t.stack[15]) ∧
      ∃ t u w : State, exec (.call 0x210) State.reset = .next t ∧ exec (.call 0x300) t = .next u ∧ exec .ret u = .next w ∧
        w.sp = t.sp ∧ w.stack[0] = t.stack[0] ∧ w.stack[1] ≠ t.stack[1] :=
  ⟨by decide, ⟨_, rfl, rfl, rfl⟩, _, _, _, rfl, rfl, rfl, rfl, rfl, by decide⟩
/-- The conditions of both branches of the skips. -/
theorem witness_SkipOnImmediate :
    (operands 7 7 0).reg 1 = 7 ∧ (operands 7 7 0).reg 1 ≠ 8 := by decide
theorem witness_SkipOnRegisters :
    (operands 7 7 0).reg 1 = (operands 7 7 0).reg 2 ∧ (operands 7 8 0).reg 1 ≠ (operands 7 8 0).reg 2 ∧
      (0x1#4 : Nibble) ≠ 0x0#4 := by decide
/-- A destination other than VF, and both sides of each flag's condition. -/
theorem witness_AddSetsCarry :
    (0x1#4 : Reg) ≠ 0xF#4 ∧ ((operands 255 1 0).reg 1).toNat + ((operands 255 1 0).reg 2).toNat > 255 ∧
      ¬ ((operands 254 1 0).reg 1).toNat + ((operands 254 1 0).reg 2).toNat > 255 := by decide
theorem witness_SubtractSetsNoBorrow :
    (0x1#4 : Reg) ≠ 0xF#4 ∧ ((operands 7 7 0).reg 1).toNat ≥ ((operands 7 7 0).reg 2).toNat ∧
      ¬ ((operands 7 8 0).reg 1).toNat ≥ ((operands 7 8 0).reg 2).toNat := by decide
theorem witness_ShiftSetsBitOut : (0x1#4 : Reg) ≠ 0xF#4 := by decide
theorem witness_RandomByteUnderMask : (0x0F#8 : Byte).getLsbD 7 = false := by decide
/-- The last legal base, T82. -/
theorem witness_StoreDecimalDigits : (State.reset.setI 0x0FFD).i.toNat + 2 ≤ 4095 := by decide
/-- The last legal base for X = 0xF, T88, and a register of the range and one above it for X = 0. -/
theorem witness_StoreRegisterRange :
    (State.reset.setI 0x0FF0).i.toNat + (0xF#4 : Reg).toNat ≤ 4095 ∧ (0xF#4 : Reg).toNat ≤ (0xF#4 : Reg).toNat := by decide
theorem witness_LoadRegisterRange :
    (State.reset.setI 0x0FFF).i.toNat + (0x0#4 : Reg).toNat ≤ 4095 ∧ (0x0#4 : Reg).toNat ≤ (0x0#4 : Reg).toNat ∧
      (0x0#4 : Reg).toNat < (0x1#4 : Reg).toNat := by decide
/-- The first base outside, for each of the four instructions: T83, T89, T94, T69e. -/
theorem witness_TransferOutsideMemoryFaults :
    4095 < (State.reset.setI 0x0FFE).i.toNat + 2 ∧ 4095 < (State.reset.setI 0x0FF1).i.toNat + (0xF#4 : Reg).toNat ∧
      0 < rowsOnScreen (State.reset.setI 0x0FFF) 0x1 0x2 ∧
      4096 < (State.reset.setI 0x0FFF).i.toNat + rowsOnScreen (State.reset.setI 0x0FFF) 0x1 0x2 := by decide
/-- The last two bytes FX55 stores for X = 0xF at the top of memory. -/
theorem witness_StoreIsSeenByNextFetch :
    ∃ t : State, exec (.ldMemVx 0xF) (State.reset.setI 0x0FF0) = .next t ∧ (t.setPc 0x0FFE).pc.toNat + 1 ≤ 4095 ∧
      (0xE#4 : Reg).toNat ≤ (0xF#4 : Reg).toNat ∧
      (t.setPc 0x0FFE).pc.toNat = (State.reset.setI 0x0FF0).i.toNat + (0xE#4 : Reg).toNat ∧
      (t.setPc 0x0FFE).pc.toNat + 1 = (State.reset.setI 0x0FF0).i.toNat + (0xF#4 : Reg).toNat :=
  ⟨_, rfl, by decide, by decide, rfl, rfl⟩
/-- FX55 with X = 0, fetched as the low byte and as the high byte of an opcode. -/
theorem witness_StoreIsSeenByNextFetch_one_byte :
    ∃ t : State, exec (.ldMemVx 0x0) (State.reset.setI 0x0208) = .next t ∧
      (t.setPc 0x0207).pc.toNat + 1 = (State.reset.setI 0x0208).i.toNat + (0x0#4 : Reg).toNat ∧
      (t.setPc 0x0208).pc.toNat = (State.reset.setI 0x0208).i.toNat + (0x0#4 : Reg).toNat :=
  ⟨_, rfl, rfl, rfl⟩
/-- The first two and the last two bytes FX33 stores, at the last legal base. -/
theorem witness_StoreIsSeenByNextFetch_digits :
    ∃ t : State, exec (.ldB 0x1) (State.reset.setI 0x0FFD) = .next t ∧ (t.setPc 0x0FFE).pc.toNat + 1 ≤ 4095 ∧
      (t.setPc 0x0FFD).pc.toNat = (State.reset.setI 0x0FFD).i.toNat + 0 ∧
      (t.setPc 0x0FFE).pc.toNat + 1 = (State.reset.setI 0x0FFD).i.toNat + 2 :=
  ⟨_, rfl, by decide, rfl, rfl⟩
/-- No row at all whatever I is; the last row at address 4095; a pixel that is covered and on, one that is covered and off, one
that is not covered. -/
theorem witness_DrawInvertsCoveredPixels :
    rowsOnScreen ((canvas 0xFF 0xFF []).setI 0xFFFF) 0x1 0xF = 0 ∧
      ((canvas 0 0 []).setI 0x0FFE).i.toNat + rowsOnScreen ((canvas 0 0 []).setI 0x0FFE) 0x1 0x2 ≤ 4096 ∧
      SpriteCovers ((canvas 63 31 [0x80]).setFb [(2047, 0xFF)]) 0x0 0x1 0x1 63 31 ∧
      State.pixel ((canvas 63 31 [0x80]).setFb [(2047, 0xFF)]) 63 31 = 0xFF ∧
      SpriteCovers (canvas 0 0 [0x01]) 0x0 0x1 0x1 7 0 ∧ (canvas 0 0 [0x01]).pixel 7 0 = 0x00 ∧
      ¬ SpriteCovers (canvas 0 0 [0x01]) 0x0 0x1 0x1 0 0 := by
  unfold SpriteCovers; decide
/-- A screen on which nothing was on: no pixel of a blank screen meets the collision condition. -/
theorem witness_DrawInvertsCoveredPixels_no_collision :
    ¬ ∃ col row : Nat, col < 64 ∧ row < 32 ∧ SpriteCovers (canvas 0 0 [0xFF]) 0x0 0x1 0x1 col row ∧
      (canvas 0 0 [0xFF]).pixel col row = 0xFF#8 := by
  rintro ⟨_, _, _, _, _, h⟩
  exact absurd h (by simp only [State.pixel]; exact of_decide_eq_true rfl)
theorem witness_DrawTwiceRestoresBlankScreen :
    ∃ t u : State, (0x0#4 : Reg) ≠ 0xF#4 ∧ (0x1#4 : Reg) ≠ 0xF#4 ∧
      (∀ k : Nat, Framebuffer.read (canvas 60 31 [0xFF, 0x81]).fb k = 0x00#8) ∧
      exec (.drw 0x0 0x1 0x2) (canvas 60 31 [0xFF, 0x81]) = .next t ∧ exec (.drw 0x0 0x1 0x2) t = .next u :=
  ⟨_, _, by decide, by decide, fun _ => rfl, rfl, rfl⟩
/-- The least and the largest key index. -/
theorem witness_KeySkips :
    ((operands 0 0 0).reg 2).toNat = (0x0#4 : Nibble).toNat ∧ ((operands 0 15 0).reg 2).toNat = (0xF#4 : Nibble).toNat := by
  decide
theorem witness_KeyIndexAboveFifteenFaults : 15 < ((operands 0 16 0).reg 2).toNat := by decide
/-- Key 0, and key 15 with no other. -/
theorem witness_WaitKeyTakesLeastPressed :
    (State.reset.writeKey 0x0 true).key 0x0 = true ∧
      (∀ j : Nibble, j.toNat < (0x0#4 : Nibble).toNat → (State.reset.writeKey 0x0 true).key j = false) ∧
      (State.reset.writeKey 0xF true).key 0xF = true ∧
      (∀ j : Nibble, j.toNat < (0xF#4 : Nibble).toNat → (State.reset.writeKey 0xF true).key j = false) := by decide
theorem witness_WaitKeyPolls : ∀ k : Nibble, State.reset.key k = false := by decide
theorem witness_HostWritesOneKey : (0x0#4 : Nibble) ≠ 0xF#4 := by decide
/-- An instruction that is none of the excepted ones and answers a next state, for the statements over all instructions. -/
theorem witness_OnlyTimerWritesChangeTimers :
    (∃ t : State, exec (.ldDtVx 0x1) (operands 0x3C 0 0) = .next t) ∧ (∀ x : Reg, Instr.ldDtVx 0x1 ≠ .ldStVx x) ∧
      (∃ t : State, exec (.ldStVx 0x1) (operands 0x3C 0 0) = .next t) ∧ (∀ x : Reg, Instr.ldStVx 0x1 ≠ .ldDtVx x) :=
  ⟨⟨_, rfl⟩, by decide, ⟨_, rfl⟩, by decide⟩
theorem witness_OnlyStoresChangeMemory :
    ∃ t : State, exec (.ldVxMem 0x1) State.reset = .next t ∧ (∀ x : Reg, Instr.ldVxMem 0x1 ≠ .ldB x) ∧
      (∀ x : Reg, Instr.ldVxMem 0x1 ≠ .ldMemVx x) :=
  ⟨_, rfl, by decide, by decide⟩
theorem witness_OnlyClearAndDrawChangeScreen :
    ∃ t : State, exec (.ldMemVx 0x1) (State.reset.setI 0x0300) = .next t ∧ Instr.ldMemVx 0x1 ≠ .cls ∧
      (∀ (x y : Reg) (n : Nibble), Instr.ldMemVx 0x1 ≠ .drw x y n) :=
  ⟨_, rfl, by decide, fun _ _ _ => Instr.noConfusion⟩
theorem witness_StackAndIndexHaveFewWriters :
    ∃ t : State, exec (.ldVxMem 0x1) State.reset = .next t ∧ (∀ nnn : Imm12, Instr.ldVxMem 0x1 ≠ .call nnn) ∧
      Instr.ldVxMem 0x1 ≠ .ret ∧ (∀ nnn : Imm12, Instr.ldVxMem 0x1 ≠ .ldI nnn) ∧
      (∀ x : Reg, Instr.ldVxMem 0x1 ≠ .addI x) ∧ (∀ x : Reg, Instr.ldVxMem 0x1 ≠ .ldF x) :=
  ⟨_, rfl, fun _ => Instr.noConfusion, by decide, fun _ => Instr.noConfusion, by decide, by decide⟩
/-- VF under 7XKK, and the first register above the range of FX65. -/
theorem witness_RegistersChangeOnlyAsNamed :
    (∃ t : State, exec (.addImm 0x1 0x01) (operands 0xFF 0 0) = .next t) ∧ ¬ mayWriteReg (.addImm 0x1 0x01) 0xF ∧
      (∃ t : State, exec (.ldVxMem 0x1) State.reset = .next t) ∧ ¬ mayWriteReg (.ldVxMem 0x1) 0x2 :=
  ⟨⟨_, rfl⟩, by unfold mayWriteReg; decide, ⟨_, rfl⟩, by unfold mayWriteReg; decide⟩
theorem witness_OtherInstructionsMoveToNext :
    ∃ t : State, exec .cls State.reset = .next t ∧ ¬ transfersControl .cls := ⟨_, rfl, id⟩
/-- Each of the faults the statement lists is raised somewhere. -/
theorem witness_OnlyTheNamedInstructionsFault :
    exec (.call 0x300) (nested 16) = .fault (.stackFault .overflow 0x2300) ∧
      exec .ret (nested 0) = .fault (.stackFault .underflow 0x00EE) ∧
      exec (.skp 0x2) (operands 0 16 0) = .fault (.keyIndexFault 16) ∧
      exec (.ldB 0x1) (State.reset.setI 0x0FFE) = .fault (.addressFault 4096) ∧
      exec (.ldVxMem 0x1) (State.reset.setI 0x0FFF) = .fault (.addressFault 4096) ∧
      exec (.drw 0x0 0x1 0x2) ((canvas 0 0 []).setI 0x0FFF) = .fault (.addressFault 4096) :=
  ⟨rfl, rfl, rfl, rfl, rfl, rfl⟩
theorem witness_FaultIgnoresKeysAndRandomSource : step State.reset = .fault (.decodeFault 0x0000) := by rfl
theorem witness_SelfJumpIsFixedPoint : (State.reset.withFetchWord 16 0x1200).Terminated :=
  ⟨0x200, by decide, by decide⟩
theorem witness_StepKeepsCanonicalForm :
    (State.reset.withFetchWord 16 0xF055).Canonical ∧ ∃ t : State, step (State.reset.withFetchWord 16 0xF055) = .next t :=
  ⟨by unfold State.Canonical; decide, _, rfl⟩
theorem witness_StepKeepsPixelsLegal :
    (State.withFetchWord (canvas 0 0 [0xFF]) 16 0xD011).PixelsLegal ∧
      ∃ t : State, step (State.withFetchWord (canvas 0 0 [0xFF]) 16 0xD011) = .next t :=
  ⟨fun _ => .inl rfl, _, rfl⟩
/-- The largest pc a program can jump to is reached from a state with V[0] = 0xFF. -/
theorem witness_StepKeepsPcBounded :
    (State.withFetchWord (State.reset.setReg 0 0xFF) 16 0xBFFF).PcBounded ∧
      ∃ t : State, step (State.withFetchWord (State.reset.setReg 0 0xFF) 16 0xBFFF) = .next t ∧ t.pc = 0x10FE :=
  ⟨by unfold State.PcBounded; decide, _, rfl, by decide⟩
theorem witness_EveryScheduleKeepsInvariant :
    (State.reset.withFetchWord 16 0xF00A).Inv ∧ ∃ t : State,
      performAll defaultFont [.writeKey 0x7 true, .tick, .step] (State.reset.withFetchWord 16 0xF00A) = .next t ∧
        t.reg 0 = 7 :=
  ⟨⟨by unfold State.Canonical; decide, fun _ => .inl rfl, by unfold State.PcBounded; decide⟩, _, rfl, by decide⟩

end Sys2Proof.Tests
end

/-! The obligations on memory (20_memory.md), settled from the laws of the shared operations. -/

namespace Sys2Proof

open Sys2Proof.Machine

/-- Settles O5: inside memory the fetch joins the bytes at pc and pc + 1, and the joined word's value has the first as its
high byte (20_memory.md R53). -/
theorem fetchIsBigEndian : Obligations.FetchIsBigEndian := by
  unfold Obligations.FetchIsBigEndian
  intro s hpc
  exact ⟨_, State.fetch_of_le (by omega), opcodeOfBytes_toNat _ _⟩

end Sys2Proof

/-! The obligations on control flow (40_flow.md), and the facts about the decoder, the frame and the skip they rest on. -/

namespace Sys2Proof

/-- Each encoding carries its family in bits 15:12; families 0, 5, 8, 9, E and F tell their instructions apart by the fixed
field below it (30_encoding.md R74, R78). -/
theorem decode_encode (i : Instr) : decode (encode i) = .instr i := by
  cases i with
  | cls | ret => decide
  | jp _ | call _ | ldI _ | jpV0 _ => simp [encode, decode]
  | seImm _ _ | sneImm _ _ | ldImm _ _ | addImm _ _ | rnd _ _ => simp [encode, decode]
  | seReg _ _ | sneReg _ _ | drw _ _ _ => simp [encode, decode]
  | ldReg _ _ | orReg _ _ | andReg _ _ | xorReg _ _ | addReg _ _ | sub _ _ | shr _ _ | subn _ _ | shl _ _ =>
    simp [encode, decode, decodeFamily8]
  | skp _ | sknp _ => simp [encode, decode, decodeFamilyE]
  | ldVxDt _ | ldVxK _ | ldDtVx _ | ldStVx _ | addI _ | ldF _ | ldB _ | ldMemVx _ | ldVxMem _ =>
    simp [encode, decode, decodeFamilyF]

namespace Machine

theorem UnchangedBut.refl (regs : List Reg) (parts : List Part) (s : State) : UnchangedBut regs parts s s :=
  ⟨fun _ _ => rfl, fun _ => rfl, fun _ => ⟨rfl, rfl⟩, fun _ => rfl, fun _ => rfl, fun _ => rfl, fun _ _ => rfl,
    fun _ _ => rfl, fun _ => rfl⟩

/-- A frame says nothing of pc, so a write of pc keeps it. -/
theorem UnchangedBut.setPc {regs : List Reg} {parts : List Part} {s t : State} (h : UnchangedBut regs parts s t)
    (target : Word) : UnchangedBut regs parts s (t.setPc target) :=
  ⟨h.registers, h.index, h.stack, h.delayTimer, h.soundTimer, h.keypad, h.screen, h.memory, h.randomSource⟩

theorem unchangedBut_setPc (s : State) (target : Word) : UnchangedBut [] [] s (s.setPc target) :=
  (UnchangedBut.refl [] [] s).setPc target

theorem unchangedBut_skipIf (s : State) (taken : Bool) : UnchangedBut [] [] s (s.skipIf taken) := by
  rw [State.skipIf_eq]
  exact unchangedBut_setPc s _

@[simp] theorem State.skipIf_pc (s : State) (taken : Bool) :
    (s.skipIf taken).pc = s.pc + (if taken then 4#16 else 2#16) := rfl

/-- The target of BNNN as an integer: both summands are too small for the 16-bit sum to wrap (40_flow.md R104). -/
theorem addressOf_add_widen_toNat (nnn : Imm12) (b : Byte) :
    (addressOf nnn + widen b).toNat = nnn.toNat + b.toNat := by
  rw [BitVec.toNat_add, addressOf_toNat, widen_toNat]
  omega

end Machine

open Sys2Proof.Machine

/-- Settles O14: the jump writes pc only, and NNN keeps its value in the 16 bits of pc (40_flow.md R101). -/
theorem jumpSetsPc : Obligations.JumpSetsPc := by
  unfold Obligations.JumpSetsPc
  intro nnn s
  exact ⟨decode_encode (.jp nnn), s.setPc (addressOf nnn), rfl, addressOf_toNat nnn, unchangedBut_setPc s _⟩

/-- Settles O15: the sum of 12 bits and 8 bits is at most 0xFFF + 0xFF, so pc holds it as it is (40_flow.md R104). -/
theorem jumpAddsRegisterZero : Obligations.JumpAddsRegisterZero := by
  unfold Obligations.JumpAddsRegisterZero
  intro nnn s
  have hpc := addressOf_add_widen_toNat nnn (s.reg 0x0#4)
  refine ⟨decode_encode (.jpV0 nnn), s.setPc (addressOf nnn + widen (s.reg 0x0#4)), rfl, hpc, ?_, unchangedBut_setPc s _⟩
  rw [State.setPc_pc, hpc]
  omega

/-- Settles O20: both instructions are the one skip, under the test of equality and under its negation (40_flow.md R105,
R106). -/
theorem skipOnImmediate : Obligations.SkipOnImmediate := by
  unfold Obligations.SkipOnImmediate
  intro x kk s
  refine ⟨decode_encode (.seImm x kk), decode_encode (.sneImm x kk),
    ⟨s.skipIf (s.reg x == kk), rfl, ?_, unchangedBut_skipIf s _⟩,
    ⟨s.skipIf (s.reg x != kk), rfl, ?_, unchangedBut_skipIf s _⟩⟩
  · simp only [State.skipIf_pc, beq_iff_eq]
  · simp only [State.skipIf_pc, bne_iff_ne, ite_not]

end Sys2Proof

/-! The obligations on loads, immediate addition and logic (41_alu.md): each writes one register and moves pc by 2. -/

namespace Sys2Proof

namespace Machine

/-- A write to a register that the frame lists keeps it. -/
theorem UnchangedBut.setReg {regs : List Reg} {parts : List Part} {s t : State} (h : UnchangedBut regs parts s t)
    {x : Reg} (hx : x ∈ regs) (b : Byte) : UnchangedBut regs parts s (t.setReg x b) where
  registers r hr := by
    have hne : r ≠ x := fun e => hr (e ▸ hx)
    rw [State.reg_setReg, if_neg hne, h.registers r hr]
  index := h.index
  stack := h.stack
  delayTimer := h.delayTimer
  soundTimer := h.soundTimer
  keypad := h.keypad
  screen := h.screen
  memory := h.memory
  randomSource := h.randomSource

/-- An instruction that ends after one register write: the value it leaves there, pc, and the frame. -/
theorem done_setReg (s : State) (x : Reg) (b : Byte) :
    ∃ t : State, done (s.setReg x b) = .next t ∧ t.reg x = b ∧ t.pc = s.pc + 2#16 ∧ UnchangedBut [x] [] s t := by
  have hframe : UnchangedBut [x] [] s (s.setReg x b) := (UnchangedBut.refl [x] [] s).setReg List.mem_cons_self b
  exact ⟨(s.setReg x b).advance 2#16, rfl, by simp, rfl, hframe.setPc _⟩

/-- The same with the written byte given bit by bit. -/
theorem done_setReg_bits (s : State) (x : Reg) {b : Byte} {bit : Nat → Bool} (hbit : ∀ k, b.getLsbD k = bit k) :
    ∃ t : State, done (s.setReg x b) = .next t ∧ (∀ k, (t.reg x).getLsbD k = bit k) ∧ t.pc = s.pc + 2#16 ∧
      UnchangedBut [x] [] s t := by
  obtain ⟨t, hnext, hreg, hpc, hframe⟩ := done_setReg s x b
  exact ⟨t, hnext, fun k => by rw [hreg, hbit], hpc, hframe⟩

end Machine

open Sys2Proof.Machine

/-- Settles O22: the one register write is of KK (41_alu.md R111). -/
theorem loadImmediateWritesRegister : Obligations.LoadImmediateWritesRegister := by
  unfold Obligations.LoadImmediateWritesRegister
  intro x kk s
  exact ⟨decode_encode (.ldImm x kk), done_setReg s x kk⟩

/-- Settles O23: the one register write is of the 8-bit sum, whose value is the sum mod 256; no write goes to VF besides
(41_alu.md R112). -/
theorem addImmediateWrapsWithoutFlag : Obligations.AddImmediateWrapsWithoutFlag := by
  unfold Obligations.AddImmediateWrapsWithoutFlag
  intro x kk s
  obtain ⟨t, hnext, hreg, hpc, hframe⟩ := done_setReg s x (s.reg x + kk)
  exact ⟨decode_encode (.addImm x kk), t, hnext, by rw [hreg, BitVec.toNat_add], hpc, hframe⟩

/-- Settles O24: the one register write is of V[Y] (41_alu.md R113). -/
theorem copyRegister : Obligations.CopyRegister := by
  unfold Obligations.CopyRegister
  intro x y s
  exact ⟨decode_encode (.ldReg x y), done_setReg s x (s.reg y)⟩

/-- Settles O25: the three instructions differ only in the value of their one register write, and each bit of that value is
the operation on the operands' bits (41_alu.md R114, R115, R116). -/
theorem logicLeavesFlagAlone : Obligations.LogicLeavesFlagAlone := by
  unfold Obligations.LogicLeavesFlagAlone
  intro x y s
  exact ⟨decode_encode (.orReg x y), decode_encode (.andReg x y), decode_encode (.xorReg x y),
    done_setReg_bits s x fun _ => BitVec.getLsbD_or,
    done_setReg_bits s x fun _ => BitVec.getLsbD_and,
    done_setReg_bits s x fun _ => BitVec.getLsbD_xor⟩

end Sys2Proof

/-! The obligations on the address register (42_index_memory.md R131, R132, R133): each writes I alone and moves pc by 2. -/

namespace Sys2Proof

namespace Machine

/-- A write of I keeps a frame that lists the index. -/
theorem UnchangedBut.setI {regs : List Reg} {parts : List Part} {s t : State} (h : UnchangedBut regs parts s t)
    (hi : Part.index ∈ parts) (w : Word) : UnchangedBut regs parts s (t.setI w) :=
  ⟨h.registers, fun hn => absurd hi hn, h.stack, h.delayTimer, h.soundTimer, h.keypad, h.screen, h.memory, h.randomSource⟩

/-- An instruction that ends after one write of I: the value it leaves there, pc, and the frame. -/
theorem done_setI (s : State) {w : Word} {n : Nat} (hw : w.toNat = n) :
    ∃ t : State, done (s.setI w) = .next t ∧ t.i.toNat = n ∧ t.pc = s.pc + 2#16 ∧ UnchangedBut [] [.index] s t := by
  have hframe : UnchangedBut [] [.index] s (s.setI w) := (UnchangedBut.refl [] [.index] s).setI List.mem_cons_self w
  exact ⟨(s.setI w).advance 2#16, rfl, hw, rfl, hframe.setPc _⟩

/-- The 16-bit sum of I and a register, as an integer (42_index_memory.md R132). -/
theorem add_widen_toNat (w : Word) (b : Byte) : (w + widen b).toNat = (w.toNat + b.toNat) % 65536 := by
  rw [BitVec.toNat_add, widen_toNat]

/-- The address of a byte's glyph is at most 255 * 5 = 1275, so 16 bits hold it (42_index_memory.md R133). -/
theorem glyphAddress_toNat (b : Byte) : (BitVec.ofNat 16 (b.toNat * Config.glyphSize)).toNat = b.toNat * 5 := by
  have hb : b.toNat < 256 := b.isLt
  rw [BitVec.toNat_ofNat, Config.glyphSize]
  omega

end Machine

open Sys2Proof.Machine

/-- Settles O30: the one write is of NNN to I, and 16 bits keep its value (42_index_memory.md R131). -/
theorem loadIndexImmediate : Obligations.LoadIndexImmediate := by
  unfold Obligations.LoadIndexImmediate
  intro nnn s
  exact ⟨decode_encode (.ldI nnn), done_setI s (addressOf_toNat nnn)⟩

/-- Settles O31: the one write is of the 16-bit sum to I; no register is written, VF included (42_index_memory.md R132). -/
theorem addToIndexWithoutFlag : Obligations.AddToIndexWithoutFlag := by
  unfold Obligations.AddToIndexWithoutFlag
  intro x s
  exact ⟨decode_encode (.addI x), done_setI s (add_widen_toNat s.i (s.reg x))⟩

/-- Settles O32: the one write is of the glyph's address to I, of the whole byte (42_index_memory.md R133). -/
theorem fontGlyphAddress : Obligations.FontGlyphAddress := by
  unfold Obligations.FontGlyphAddress
  intro x s
  exact ⟨decode_encode (.ldF x), done_setI s (glyphAddress_toNat (s.reg x))⟩

end Sys2Proof

/-! The obligation on the clear (43_display.md R141): it writes the framebuffer alone and moves pc by 2. -/

namespace Sys2Proof

namespace Machine

/-- A write of the framebuffer keeps a frame that lists the screen. -/
theorem UnchangedBut.setFb {regs : List Reg} {parts : List Part} {s t : State} (h : UnchangedBut regs parts s t)
    (hscreen : Part.screen ∈ parts) (fb : List Host.Cell) : UnchangedBut regs parts s (t.setFb fb) :=
  ⟨h.registers, h.index, h.stack, h.delayTimer, h.soundTimer, h.keypad, fun hn => absurd hscreen hn, h.memory,
    h.randomSource⟩

end Machine

open Sys2Proof.Machine

/-- Settles O38: the one write leaves the framebuffer with no listed cell, and an unlisted cell reads 0x00; no register is
written, VF included (43_display.md R141). -/
theorem clearScreenTurnsAllOff : Obligations.ClearScreenTurnsAllOff := by
  unfold Obligations.ClearScreenTurnsAllOff
  intro s
  have hframe : UnchangedBut [] [.screen] s (s.setFb []) := (UnchangedBut.refl [] [.screen] s).setFb List.mem_cons_self []
  exact ⟨decode_encode .cls, (s.setFb []).advance 2#16, rfl, Framebuffer.read_nil, rfl, hframe.setPc _⟩

end Sys2Proof

/-! The obligation on the timers (44_keypad_timers.md R154, R155, R156): each moves one byte and moves pc by 2. -/

namespace Sys2Proof

namespace Machine

/-- A write of DT keeps a frame that lists the delay timer. -/
theorem UnchangedBut.setDt {regs : List Reg} {parts : List Part} {s t : State} (h : UnchangedBut regs parts s t)
    (hdt : Part.delayTimer ∈ parts) (b : Byte) : UnchangedBut regs parts s (t.setDt b) :=
  ⟨h.registers, h.index, h.stack, fun hn => absurd hdt hn, h.soundTimer, h.keypad, h.screen, h.memory, h.randomSource⟩

/-- A write of ST keeps a frame that lists the sound timer. -/
theorem UnchangedBut.setSt {regs : List Reg} {parts : List Part} {s t : State} (h : UnchangedBut regs parts s t)
    (hst : Part.soundTimer ∈ parts) (b : Byte) : UnchangedBut regs parts s (t.setSt b) :=
  ⟨h.registers, h.index, h.stack, h.delayTimer, fun hn => absurd hst hn, h.keypad, h.screen, h.memory, h.randomSource⟩

/-- An instruction that ends after one write of DT: the value it leaves there, pc, and the frame. -/
theorem done_setDt (s : State) (b : Byte) :
    ∃ t : State, done (s.setDt b) = .next t ∧ t.dt = b ∧ t.pc = s.pc + 2#16 ∧ UnchangedBut [] [.delayTimer] s t := by
  have hframe : UnchangedBut [] [.delayTimer] s (s.setDt b) :=
    (UnchangedBut.refl [] [.delayTimer] s).setDt List.mem_cons_self b
  exact ⟨(s.setDt b).advance 2#16, rfl, rfl, rfl, hframe.setPc _⟩

/-- An instruction that ends after one write of ST: the value it leaves there, pc, and the frame. -/
theorem done_setSt (s : State) (b : Byte) :
    ∃ t : State, done (s.setSt b) = .next t ∧ t.st = b ∧ t.pc = s.pc + 2#16 ∧ UnchangedBut [] [.soundTimer] s t := by
  have hframe : UnchangedBut [] [.soundTimer] s (s.setSt b) :=
    (UnchangedBut.refl [] [.soundTimer] s).setSt List.mem_cons_self b
  exact ⟨(s.setSt b).advance 2#16, rfl, rfl, rfl, hframe.setPc _⟩

end Machine

open Sys2Proof.Machine

/-- Settles O45: the one write of each is of DT to V[X], of V[X] to DT and of V[X] to ST (44_keypad_timers.md R154, R155,
R156). -/
theorem timerMoves : Obligations.TimerMoves := by
  unfold Obligations.TimerMoves
  intro x s
  exact ⟨decode_encode (.ldVxDt x), decode_encode (.ldDtVx x), decode_encode (.ldStVx x),
    done_setReg s x s.dt, done_setDt s (s.reg x), done_setSt s (s.reg x)⟩

end Sys2Proof

/-! The obligation on TICK (60_exceptions.md R174): a write of each timer, and no other write. -/

namespace Sys2Proof

namespace Machine

/-- TICK keeps the frame that lists the two timers. -/
theorem State.tick_frame (s : State) : UnchangedBut [] [.delayTimer, .soundTimer] s s.tick := by
  have hdelay : UnchangedBut [] [.delayTimer, .soundTimer] s (s.setDt (countDown s.dt)) :=
    (UnchangedBut.refl _ _ s).setDt List.mem_cons_self _
  exact hdelay.setSt (List.mem_cons_of_mem _ List.mem_cons_self) _

end Machine

open Sys2Proof.Machine

/-- Settles O46: TICK writes each timer with its own old value counted down, which is one less floored at 0, and writes
nothing else (60_exceptions.md R174). -/
theorem tickCountsDownToZero : Obligations.TickCountsDownToZero := by
  unfold Obligations.TickCountsDownToZero
  intro font s
  have hdelay : s.tick.dt.toNat = s.dt.toNat - 1 := countDown_toNat s.dt
  have hsound : s.tick.st.toNat = s.st.toNat - 1 := countDown_toNat s.st
  exact ⟨s.tick, rfl, hdelay, hsound, rfl, s.tick_frame⟩

end Sys2Proof

/-! The decoder, the encoder and the opcode map (30_encoding.md R74 to R78): what a word decodes to encodes back to it, and the
masks of the map single out the words the decoder accepts. -/

namespace Sys2Proof

theorem wordA_of_family {w : Word} {op : Nibble} (hop : opField w = op) : wordA op (nnnField w) = w := by
  rw [← hop, wordA_fields]

theorem wordA_of_address {w : Word} {op : Nibble} {nnn : Imm12} (hop : opField w = op) (hnnn : nnnField w = nnn) :
    wordA op nnn = w := by
  rw [← hnnn, wordA_of_family hop]

theorem wordXK_of_family {w : Word} {op : Nibble} (hop : opField w = op) : wordXK op (xField w) (kkField w) = w := by
  rw [← hop, wordXK_fields]

theorem wordXK_of_lowByte {w : Word} {op : Nibble} {kk : Byte} (hop : opField w = op) (hkk : kkField w = kk) :
    wordXK op (xField w) kk = w := by
  rw [← hkk, wordXK_of_family hop]

theorem wordXYN_of_family {w : Word} {op : Nibble} (hop : opField w = op) :
    wordXYN op (xField w) (yField w) (nField w) = w := by
  rw [← hop, wordXYN_fields]

theorem wordXYN_of_lowNibble {w : Word} {op n : Nibble} (hop : opField w = op) (hn : nField w = n) :
    wordXYN op (xField w) (yField w) n = w := by
  rw [← hn, wordXYN_of_family hop]

/-- A decoding of w that is true to it: an instruction encodes to w, a rejection names w (R76, R78). -/
def Decoded.TrueTo (w : Word) : Decoded → Prop
  | .instr i => encode i = w
  | .illegal v => v = w

theorem decodeFamily0_trueTo {w : Word} (hop : opField w = 0x0#4) : (decodeFamily0 w).TrueTo w := by
  unfold decodeFamily0
  split
  next hnnn => exact wordA_of_address hop hnnn
  next =>
    split
    next hnnn => exact wordA_of_address hop hnnn
    next => rfl

theorem decodeFamily8_trueTo {w : Word} (hop : opField w = 0x8#4) : (decodeFamily8 w).TrueTo w := by
  unfold decodeFamily8
  split
  iterate 9 next hn => exact wordXYN_of_lowNibble hop hn
  next => rfl

theorem decodeFamilyE_trueTo {w : Word} (hop : opField w = 0xE#4) : (decodeFamilyE w).TrueTo w := by
  unfold decodeFamilyE
  split
  next hkk => exact wordXK_of_lowByte hop hkk
  next =>
    split
    next hkk => exact wordXK_of_lowByte hop hkk
    next => rfl

theorem decodeFamilyF_trueTo {w : Word} (hop : opField w = 0xF#4) : (decodeFamilyF w).TrueTo w := by
  unfold decodeFamilyF
  split
  iterate 9 next hkk => exact wordXK_of_lowByte hop hkk
  next => rfl

/-- The decoder is true to every word, family by family. -/
theorem decode_trueTo (w : Word) : (decode w).TrueTo w := by
  unfold decode
  split
  next hop => exact decodeFamily0_trueTo hop
  iterate 2 next hop => exact wordA_of_family hop
  iterate 2 next hop => exact wordXK_of_family hop
  next hop =>
    split
    next hn => exact wordXYN_of_lowNibble hop hn
    next => rfl
  iterate 2 next hop => exact wordXK_of_family hop
  next hop => exact decodeFamily8_trueTo hop
  next hop =>
    split
    next hn => exact wordXYN_of_lowNibble hop hn
    next => rfl
  iterate 2 next hop => exact wordA_of_family hop
  next hop => exact wordXK_of_family hop
  next hop => exact wordXYN_of_family hop
  next hop => exact decodeFamilyE_trueTo hop
  next =>
    refine decodeFamilyF_trueTo ?_
    have hlast : ∀ op : Nibble, op ∉ [0x0#4, 0x1#4, 0x2#4, 0x3#4, 0x4#4, 0x5#4, 0x6#4, 0x7#4, 0x8#4, 0x9#4, 0xA#4, 0xB#4,
      0xC#4, 0xD#4, 0xE#4] → op = 0xF#4 := by decide
    refine hlast _ fun hmem => ?_
    simp only [List.mem_cons, List.not_mem_nil, or_false] at hmem
    tauto

theorem encode_of_decode {w : Word} {i : Instr} (h : decode w = .instr i) : encode i = w := by
  have htrue := decode_trueTo w
  rwa [h] at htrue

/-- A word is decoded to an instruction or rejected by its own name. -/
theorem decode_instr_or_illegal (w : Word) : (∃ i : Instr, decode w = .instr i) ∨ decode w = .illegal w := by
  have htrue := decode_trueTo w
  cases hd : decode w with
  | instr i => exact .inl ⟨i, rfl⟩
  | illegal v =>
    rw [hd] at htrue
    exact .inr (congrArg Decoded.illegal htrue)

/-! The opcode map's masks. -/

/-- Every instruction's row stands in the opcode map, and its encoding is of that row. -/
theorem encode_fits_row (i : Instr) : i.row ∈ opcodeRows ∧ i.row.fits (encode i) = true := by
  cases i with
  | cls => exact Laws.EncodingRow.cls
  | ret => exact Laws.EncodingRow.ret
  | jp nnn => exact Laws.EncodingRow.jp nnn
  | call nnn => exact Laws.EncodingRow.call nnn
  | seImm x kk => exact Laws.EncodingRow.seImm x kk
  | sneImm x kk => exact Laws.EncodingRow.sneImm x kk
  | seReg x y => exact Laws.EncodingRow.seReg x y
  | ldImm x kk => exact Laws.EncodingRow.ldImm x kk
  | addImm x kk => exact Laws.EncodingRow.addImm x kk
  | ldReg x y => exact Laws.EncodingRow.ldReg x y
  | orReg x y => exact Laws.EncodingRow.orReg x y
  | andReg x y => exact Laws.EncodingRow.andReg x y
  | xorReg x y => exact Laws.EncodingRow.xorReg x y
  | addReg x y => exact Laws.EncodingRow.addReg x y
  | sub x y => exact Laws.EncodingRow.sub x y
  | shr x y => exact Laws.EncodingRow.shr x y
  | subn x y => exact Laws.EncodingRow.subn x y
  | shl x y => exact Laws.EncodingRow.shl x y
  | sneReg x y => exact Laws.EncodingRow.sneReg x y
  | ldI nnn => exact Laws.EncodingRow.ldI nnn
  | jpV0 nnn => exact Laws.EncodingRow.jpV0 nnn
  | rnd x kk => exact Laws.EncodingRow.rnd x kk
  | drw x y n => exact Laws.EncodingRow.drw x y n
  | skp x => exact Laws.EncodingRow.skp x
  | sknp x => exact Laws.EncodingRow.sknp x
  | ldVxDt x => exact Laws.EncodingRow.ldVxDt x
  | ldVxK x => exact Laws.EncodingRow.ldVxK x
  | ldDtVx x => exact Laws.EncodingRow.ldDtVx x
  | ldStVx x => exact Laws.EncodingRow.ldStVx x
  | addI x => exact Laws.EncodingRow.addI x
  | ldF x => exact Laws.EncodingRow.ldF x
  | ldB x => exact Laws.EncodingRow.ldB x
  | ldMemVx x => exact Laws.EncodingRow.ldMemVx x
  | ldVxMem x => exact Laws.EncodingRow.ldVxMem x

/-- One instruction of each row, in the map's order. -/
def Instr.oneOfEachRow : List Instr :=
  [.cls, .ret, .jp 0, .call 0, .seImm 0 0, .sneImm 0 0, .seReg 0 0, .ldImm 0 0, .addImm 0 0, .ldReg 0 0, .orReg 0 0,
   .andReg 0 0, .xorReg 0 0, .addReg 0 0, .sub 0 0, .shr 0 0, .subn 0 0, .shl 0 0, .sneReg 0 0, .ldI 0, .jpV0 0, .rnd 0 0,
   .drw 0 0 0, .skp 0, .sknp 0, .ldVxDt 0, .ldVxK 0, .ldDtVx 0, .ldStVx 0, .addI 0, .ldF 0, .ldB 0, .ldMemVx 0, .ldVxMem 0]

theorem Instr.oneOfEachRow_rows : Instr.oneOfEachRow.map Instr.row = opcodeRows := by decide

theorem exists_row_eq {r : OpcodeRow} (hr : r ∈ opcodeRows) : ∃ i : Instr, i.row = r := by
  rw [← Instr.oneOfEachRow_rows] at hr
  obtain ⟨i, -, hi⟩ := List.mem_map.mp hr
  exact ⟨i, hi⟩

theorem OpcodeRow.fits_iff {r : OpcodeRow} {w : Word} : r.fits w = true ↔ w &&& r.mask = r.bits := beq_iff_eq

/-- A word of a row agrees with the row's bits in every field that the row's mask keeps whole. -/
theorem OpcodeRow.field_of_fits {r : OpcodeRow} {w : Word} (h : r.fits w = true) {start len : Nat}
    (hmask : r.mask.extractLsb' start len = BitVec.allOnes len) : w.extractLsb' start len = r.bits.extractLsb' start len := by
  rw [← OpcodeRow.fits_iff.mp h, BitVec.extractLsb'_and, hmask, BitVec.and_allOnes]

/-- A word that matches the row of some instruction is decoded to an instruction: the row's mask keeps the fields that the
decoder tests, and the row's bits give them. -/
theorem decode_of_fits_row (i : Instr) {w : Word} (h : i.row.fits w = true) : ∃ j : Instr, decode w = .instr j := by
  have family (hmask : opField i.row.mask = 0xF#4) : opField w = opField i.row.bits := OpcodeRow.field_of_fits h hmask
  have lowNibble (hmask : nField i.row.mask = 0xF#4) : nField w = nField i.row.bits := OpcodeRow.field_of_fits h hmask
  have lowByte (hmask : kkField i.row.mask = 0xFF#8) : kkField w = kkField i.row.bits := OpcodeRow.field_of_fits h hmask
  have low (hmask : nnnField i.row.mask = 0xFFF#12) : nnnField w = nnnField i.row.bits := OpcodeRow.field_of_fits h hmask
  cases i with
  | cls | ret =>
    simp only [Instr.row] at family low
    rw [decode, family (by rfl), decodeFamily0, low (by rfl)]
    exact ⟨_, rfl⟩
  | jp _ | call _ | ldI _ | jpV0 _ | seImm _ _ | sneImm _ _ | ldImm _ _ | addImm _ _ | rnd _ _ | drw _ _ _ =>
    simp only [Instr.row] at family
    rw [decode, family (by rfl)]
    exact ⟨_, rfl⟩
  | seReg _ _ | sneReg _ _ =>
    simp only [Instr.row] at family lowNibble
    rw [decode, family (by rfl), lowNibble (by rfl)]
    exact ⟨_, rfl⟩
  | ldReg _ _ | orReg _ _ | andReg _ _ | xorReg _ _ | addReg _ _ | sub _ _ | shr _ _ | subn _ _ | shl _ _ =>
    simp only [Instr.row] at family lowNibble
    rw [decode, family (by rfl), decodeFamily8, lowNibble (by rfl)]
    exact ⟨_, rfl⟩
  | skp _ | sknp _ =>
    simp only [Instr.row] at family lowByte
    rw [decode, family (by rfl), decodeFamilyE, lowByte (by rfl)]
    exact ⟨_, rfl⟩
  | ldVxDt _ | ldVxK _ | ldDtVx _ | ldStVx _ | addI _ | ldF _ | ldB _ | ldMemVx _ | ldVxMem _ =>
    simp only [Instr.row] at family lowByte
    rw [decode, family (by rfl), decodeFamilyF, lowByte (by rfl)]
    exact ⟨_, rfl⟩

theorem wellFormedWord_iff {w : Word} : wellFormedWord w = true ↔ ∃ r ∈ opcodeRows, r.fits w = true := List.any_eq_true

theorem wellFormedWord_iff_decode {w : Word} : wellFormedWord w = true ↔ ∃ i : Instr, decode w = .instr i := by
  rw [wellFormedWord_iff]
  constructor
  · rintro ⟨r, hr, hfits⟩
    obtain ⟨i, rfl⟩ := exists_row_eq hr
    exact decode_of_fits_row i hfits
  · rintro ⟨i, hi⟩
    obtain ⟨hrow, hfits⟩ := encode_fits_row i
    rw [encode_of_decode hi] at hfits
    exact ⟨i.row, hrow, hfits⟩

theorem decode_illegal_iff {w : Word} : decode w = .illegal w ↔ wellFormedWord w = false := by
  rw [Bool.eq_false_iff, ne_eq, wellFormedWord_iff_decode]
  constructor
  · rintro hill ⟨i, hi⟩
    rw [hi] at hill
    cases hill
  · exact (decode_instr_or_illegal w).resolve_left

/-- Two rows that a word fits agree on the bits that both masks keep. -/
theorem OpcodeRow.bits_agree {r q : OpcodeRow} {w : Word} (hr : r.fits w = true) (hq : q.fits w = true) :
    r.bits &&& q.mask = q.bits &&& r.mask := by
  rw [← OpcodeRow.fits_iff.mp hr, ← OpcodeRow.fits_iff.mp hq, BitVec.and_assoc, BitVec.and_assoc, BitVec.and_comm r.mask]

/-- Rows that agree on the bits both masks keep are the same row. -/
theorem opcodeRows_eq_of_bits_agree :
    ∀ r ∈ opcodeRows, ∀ q ∈ opcodeRows, r.bits &&& q.mask = q.bits &&& r.mask → r = q := by
  decide

/-- Settles O10: the word by the fixed fields of each encoding, the bytes because they are the word's two halves
(30_encoding.md section 4). -/
theorem decodeOfEncode : Obligations.DecodeOfEncode := by
  unfold Obligations.DecodeOfEncode
  intro i rest
  have hword := decode_encode i
  refine ⟨hword, ?_⟩
  simp [encodeBytes, decodeBytes, hword]

/-- Settles O11: each branch of the decoder takes the fields of the word apart that the encoder puts together (30_encoding.md
section 4). -/
theorem encodeOfDecode : Obligations.EncodeOfDecode := by
  unfold Obligations.EncodeOfDecode
  intro w i
  exact encode_of_decode

/-- Settles O12: a legal word is the encoding of what it decodes to, hence of that instruction's row; a word of a row has the
fields that the decoder tests for (30_encoding.md sections 3 and 4). -/
theorem decodeAgreesWithOpcodeMap : Obligations.DecodeAgreesWithOpcodeMap := by
  unfold Obligations.DecodeAgreesWithOpcodeMap
  intro w
  refine ⟨fun i hi => ?_, decode_illegal_iff⟩
  have hrow := encode_fits_row i
  rwa [encode_of_decode hi] at hrow

/-- Settles O13: two rows of one word agree where both masks look, and no two different rows of the map do (30_encoding.md
section 3). -/
theorem opcodeMapRowsDisjoint : Obligations.OpcodeMapRowsDisjoint := by
  unfold Obligations.OpcodeMapRowsDisjoint
  exact ⟨rfl, fun w r q hr hq hrw hqw => opcodeRows_eq_of_bits_agree r hr q hq (OpcodeRow.bits_agree hrw hqw)⟩

/-- Settles O9, by running the decoder on the 22 words. -/
theorem decodeReadsWorkedWords : Obligations.DecodeReadsWorkedWords := by
  unfold Obligations.DecodeReadsWorkedWords
  decide

end Sys2Proof

/-! The obligations on STEP as fetch, decode and execute (40_flow.md R100; 60_exceptions.md R161, R162). -/

namespace Sys2Proof

namespace Machine

theorem step_of_outside {s : State} {a : Nat} (h : s.fetch = .outside a) : step s = .fault (.addressFault a) := by
  rw [step, h]
  rfl

theorem step_of_instr {s : State} {w : Word} {i : Instr} (hw : s.fetch = .opcode w) (hi : decode w = .instr i) :
    step s = exec i s := by
  simp only [step, hw, hi]

theorem step_of_illegal {s : State} {w v : Word} (hw : s.fetch = .opcode w) (hv : decode w = .illegal v) :
    step s = .fault (.decodeFault v) := by
  simp only [step, hw, hv]
  rfl

end Machine

open Sys2Proof.Machine

/-- Settles O6: the fetch answers the lowest outside address, and STEP raises the fault with it (20_memory.md section 7). -/
theorem fetchOutsideMemoryFaults : Obligations.FetchOutsideMemoryFaults := by
  unfold Obligations.FetchOutsideMemoryFaults
  intro s hpc
  exact step_of_outside (State.fetch_of_ge hpc)

/-- Settles O7: nothing stands around the execution of the decoded instruction (40_flow.md section 1). -/
theorem stepRunsDecodedInstruction : Obligations.StepRunsDecodedInstruction := by
  unfold Obligations.StepRunsDecodedInstruction
  intro s i hpc hi
  exact step_of_instr (State.fetch_of_le (by omega)) hi

/-- Settles O8: a word of no row is one the decoder rejects by its own name (60_exceptions.md section 1). -/
theorem illegalOpcodeFaults : Obligations.IllegalOpcodeFaults := by
  unfold Obligations.IllegalOpcodeFaults
  intro s w hfetch hrows
  exact step_of_illegal hfetch (decode_illegal_iff.mpr hrows)

/-- Settles O56: the fetched word decodes to the jump, whose one write gives pc the value it has (70_reset_and_hazards.md
section 3). -/
theorem selfJumpIsFixedPoint : Obligations.SelfJumpIsFixedPoint := by
  unfold Obligations.SelfJumpIsFixedPoint
  rintro s ⟨nnn, hpc, hfetch⟩
  calc step s = exec (.jp nnn) s := step_of_instr hfetch (decode_encode _)
    _ = .next (s.setPc (addressOf nnn)) := rfl
    _ = .next s := by rw [← hpc]; rfl

end Sys2Proof

/-! The obligations on call, return and the register skips (40_flow.md R102, R103, R107, R108, R163, R164). -/

namespace Sys2Proof

namespace Machine

theorem exec_call_of_room {s : State} (h : s.sp.val < 16) (nnn : Imm12) :
    exec (.call nnn) s =
      .next ((s.setStack (s.stack.set s.sp.val s.pc h) ⟨s.sp.val + 1, by omega⟩).setPc (addressOf nnn)) := by
  change execCall nnn s = _
  rw [execCall, State.push_of_lt h]

theorem exec_call_of_full {s : State} (h : s.sp.val = 16) (nnn : Imm12) :
    exec (.call nnn) s = .fault (.stackFault .overflow (encode (.call nnn))) := by
  change execCall nnn s = _
  rw [execCall, State.push_of_full (by omega)]
  rfl

theorem exec_ret_of_used {s : State} {k : Nat} (hk : k < 16) (h : s.sp.val = k + 1) :
    exec .ret s = .next ((s.setStack s.stack ⟨k, by omega⟩).setPc (s.stack[k]'hk + 2#16)) := by
  change execRet s = _
  rw [execRet, State.pop_of_pos (by omega)]
  have htop : s.sp.val - 1 = k := by omega
  simp only [htop]

theorem exec_ret_of_empty {s : State} (h : s.sp.val = 0) :
    exec .ret s = .fault (.stackFault .underflow 0x00EE#16) := by
  change execRet s = _
  rw [execRet, State.pop_of_empty (by omega)]
  rfl

/-- A write of the call stack keeps a frame that lists it. -/
theorem UnchangedBut.setStack {regs : List Reg} {parts : List Part} {s t : State} (h : UnchangedBut regs parts s t)
    (hstack : Part.stack ∈ parts) (slots : Vector Word 16) (sp : Fin 17) :
    UnchangedBut regs parts s (t.setStack slots sp) :=
  ⟨h.registers, h.index, fun hn => absurd hstack hn, h.delayTimer, h.soundTimer, h.keypad, h.screen, h.memory,
    h.randomSource⟩

theorem unchangedBut_setStack (s : State) (slots : Vector Word 16) (sp : Fin 17) :
    UnchangedBut [] [.stack] s (s.setStack slots sp) :=
  (UnchangedBut.refl [] [.stack] s).setStack List.mem_cons_self slots sp

end Machine

open Sys2Proof.Machine

/-- Settles O16: the push writes the slot at sp with the old pc and raises sp, the jump writes pc (40_flow.md R103). -/
theorem callPushesItsAddress : Obligations.CallPushesItsAddress := by
  unfold Obligations.CallPushesItsAddress
  intro nnn s h
  refine ⟨decode_encode (.call nnn), _, exec_call_of_room h nnn, ?_, fun k hk hne => ?_, rfl, addressOf_toNat nnn,
    (unchangedBut_setStack s _ _).setPc _⟩
  · simp
  · simp [Ne.symm hne]

/-- Settles O17: the pop lowers sp and keeps the slots, and pc is the popped slot plus 2 (40_flow.md R102). -/
theorem returnResumesAfterCall : Obligations.ReturnResumesAfterCall := by
  unfold Obligations.ReturnResumesAfterCall
  intro s k hk h
  exact ⟨decode_encode .ret, _, exec_ret_of_used hk h, rfl, rfl, rfl, (unchangedBut_setStack s _ _).setPc _⟩

/-- Settles O18: at depth 16 there is no slot to push to, at depth 0 none to pop (40_flow.md section 2). -/
theorem stackBoundsFault : Obligations.StackBoundsFault := by
  unfold Obligations.StackBoundsFault
  intro nnn s
  exact ⟨fun hfull => exec_call_of_full hfull nnn, exec_ret_of_empty⟩

/-- Settles O19: the call wrote its address to the slot that is the top one again when the depth is the call's (40_flow.md
section 2). -/
theorem callThenReturnRoundTrip : Obligations.CallThenReturnRoundTrip := by
  unfold Obligations.CallThenReturnRoundTrip
  intro nnn s t u h hcall hsp hslot
  rw [exec_call_of_room h] at hcall
  injection hcall with ht
  subst ht
  have hdepth : u.sp.val = s.sp.val + 1 := congrArg Fin.val hsp
  have hsaved : u.stack[s.sp.val]'h = s.pc := by simpa using hslot
  refine ⟨_, exec_ret_of_used h hdepth, ?_, rfl⟩
  rw [State.setPc_pc, hsaved]

/-- Settles O21: both instructions are the one skip, under the test of equality and under its negation; families 5 and 9 test
the low nibble (40_flow.md section 3). -/
theorem skipOnRegisters : Obligations.SkipOnRegisters := by
  unfold Obligations.SkipOnRegisters
  intro x y s
  refine ⟨decode_encode (.seReg x y), decode_encode (.sneReg x y), fun n hn => ?_,
    ⟨s.skipIf (s.reg x == s.reg y), rfl, ?_, unchangedBut_skipIf s _⟩,
    ⟨s.skipIf (s.reg x != s.reg y), rfl, ?_, unchangedBut_skipIf s _⟩⟩
  · exact ⟨by simp [decode, hn], by simp [decode, hn]⟩
  · simp only [State.skipIf_pc, beq_iff_eq]
  · simp only [State.skipIf_pc, bne_iff_ne, ite_not]

end Sys2Proof

/-! The obligations on the flag writers and the random byte (41_alu.md R110, R117 to R121, R123). -/

namespace Sys2Proof

namespace Machine

/-- An instruction that ends after a result and a flag write: the values it leaves there, pc, and the frame. -/
theorem done_setResultThenFlag (s : State) (x : Reg) (result flag : Byte) :
    ∃ t : State, done (s.setResultThenFlag x result flag) = .next t ∧ (x ≠ 0xF#4 → t.reg x = result) ∧
      t.reg 0xF#4 = flag ∧ t.pc = s.pc + 2#16 ∧ UnchangedBut [x, 0xF#4] [] s t := by
  have hresult : UnchangedBut [x, 0xF#4] [] s (s.setReg x result) :=
    (UnchangedBut.refl [x, 0xF#4] [] s).setReg List.mem_cons_self result
  have hframe : UnchangedBut [x, 0xF#4] [] s (s.setResultThenFlag x result flag) :=
    hresult.setReg (List.mem_cons_of_mem _ List.mem_cons_self) flag
  refine ⟨(s.setResultThenFlag x result flag).advance 2#16, rfl, fun hx => ?_, ?_, rfl, hframe.setPc _⟩
  · rw [State.reg_advance, State.reg_setResultThenFlag, if_neg (show x ≠ vf from hx), if_pos rfl]
  · rw [State.reg_advance, State.reg_setResultThenFlag, if_pos (show (0xF#4 : Reg) = vf from rfl)]

theorem flagByte_decide (p : Prop) [Decidable p] : flagByte (decide p) = if p then 1#8 else 0#8 := by
  simp [flagByte]

theorem flagByte_toNat (c : Bool) : (flagByte c).toNat = c.toNat := by
  cases c <;> rfl

/-- The difference mod 256 as an integer. -/
theorem sub_toNat (a b : Byte) : (a - b).toNat = (a.toNat + 256 - b.toNat) % 256 := by
  rw [BitVec.toNat_sub]
  omega

theorem rightOutFlag_toNat (a : Byte) : (rightOutFlag a).toNat = a.toNat % 2 := by
  rw [rightOutFlag, flagByte_toNat, BitVec.getLsbD, Nat.toNat_testBit]
  omega

theorem leftOutFlag_toNat (a : Byte) : (leftOutFlag a).toNat = a.toNat / 128 := by
  rw [leftOutFlag, flagByte_toNat, BitVec.getLsbD, Nat.toNat_testBit]
  omega

/-- One more random byte taken keeps a frame that lists the random source. -/
theorem UnchangedBut.countDraw {regs : List Reg} {parts : List Part} {s t : State} (h : UnchangedBut regs parts s t)
    (hsource : Part.randomSource ∈ parts) : UnchangedBut regs parts s t.countDraw :=
  ⟨h.registers, h.index, h.stack, h.delayTimer, h.soundTimer, h.keypad, h.screen, h.memory, fun hn => absurd hsource hn⟩

end Machine

open Sys2Proof.Machine

/-- Settles O26: the result is the 8-bit sum, the flag that the sum of the old operands exceeds 255 (41_alu.md R117). -/
theorem addSetsCarry : Obligations.AddSetsCarry := by
  unfold Obligations.AddSetsCarry
  intro x y s
  obtain ⟨t, hnext, hresult, hflag, hpc, hframe⟩ :=
    done_setResultThenFlag s x (s.reg x + s.reg y) (carryFlag (s.reg x) (s.reg y))
  refine ⟨decode_encode (.addReg x y), t, hnext, fun hx => ?_, ?_, hpc, hframe⟩
  · rw [hresult hx, BitVec.toNat_add]
  · rw [hflag, carryFlag, flagByte_decide]

/-- Settles O27: the two instructions are one difference with its operands exchanged, and the flag compares the same old
operands (41_alu.md R118, R120). -/
theorem subtractSetsNoBorrow : Obligations.SubtractSetsNoBorrow := by
  unfold Obligations.SubtractSetsNoBorrow
  intro x y s
  have hdiff (a b : Byte) : ∃ t : State, done (s.setResultThenFlag x (a - b) (noBorrowFlag a b)) = .next t ∧
      (x ≠ 0xF#4 → (t.reg x).toNat = (a.toNat + 256 - b.toNat) % 256) ∧
      t.reg 0xF#4 = (if a.toNat ≥ b.toNat then 1#8 else 0#8) ∧ t.pc = s.pc + 2#16 ∧ UnchangedBut [x, 0xF#4] [] s t := by
    obtain ⟨t, hnext, hresult, hflag, hpc, hframe⟩ := done_setResultThenFlag s x (a - b) (noBorrowFlag a b)
    refine ⟨t, hnext, fun hx => ?_, ?_, hpc, hframe⟩
    · rw [hresult hx, sub_toNat]
    · rw [hflag, noBorrowFlag, flagByte_decide]
  exact ⟨decode_encode (.sub x y), decode_encode (.subn x y), hdiff (s.reg x) (s.reg y), hdiff (s.reg y) (s.reg x)⟩

/-- Settles O28: a shift by one halves or doubles the value, and the flag is the bit of weight 1 or 128 (41_alu.md R119,
R121). -/
theorem shiftSetsBitOut : Obligations.ShiftSetsBitOut := by
  unfold Obligations.ShiftSetsBitOut
  intro x y s
  refine ⟨decode_encode (.shr x y), decode_encode (.shl x y), ?_, ?_⟩
  · obtain ⟨t, hnext, hresult, hflag, hpc, hframe⟩ :=
      done_setResultThenFlag s x (s.reg x >>> 1) (rightOutFlag (s.reg x))
    refine ⟨t, hnext, fun hx => ?_, ?_, hpc, hframe⟩
    · rw [hresult hx, BitVec.toNat_ushiftRight, Nat.shiftRight_eq_div_pow, Nat.pow_one]
    · rw [hflag, rightOutFlag_toNat]
  · obtain ⟨t, hnext, hresult, hflag, hpc, hframe⟩ :=
      done_setResultThenFlag s x (s.reg x <<< 1) (leftOutFlag (s.reg x))
    refine ⟨t, hnext, fun hx => ?_, ?_, hpc, hframe⟩
    · rw [hresult hx, BitVec.toNat_shiftLeft, Nat.shiftLeft_eq, Nat.pow_one]
    · rw [hflag, leftOutFlag_toNat]

/-- Settles O29: the one register write is of the next random byte under the mask, and the counter of bytes taken goes up by
one (41_alu.md R123). -/
theorem randomByteUnderMask : Obligations.RandomByteUnderMask := by
  unfold Obligations.RandomByteUnderMask
  intro x kk s
  have hwrite : UnchangedBut [x] [.randomSource] s (s.setReg x (Config.rnd s.draws &&& kk)) :=
    (UnchangedBut.refl [x] [.randomSource] s).setReg List.mem_cons_self _
  have hreg : ((s.setReg x (Config.rnd s.draws &&& kk)).countDraw.advance 2#16).reg x = Config.rnd s.draws &&& kk := by simp
  refine ⟨decode_encode (.rnd x kk), _, rfl, hreg, rfl, fun b hb => ?_, rfl,
    (hwrite.countDraw List.mem_cons_self).setPc _⟩
  rw [hreg, BitVec.getLsbD_and, hb, Bool.and_false]

end Sys2Proof

/-! The obligations on the keypad (44_keypad_timers.md R150 to R153, R165; 60_exceptions.md R177). -/

namespace Sys2Proof

namespace Machine

/-- A byte that is a key's index passes the check as that key. -/
theorem guardKey_of_key {b : Byte} {k : Nibble} (h : b.toNat = k.toNat) (body : Nibble → StepOutcome) :
    guardKey b body = body k := by
  have hk : b.toNat ≤ 15 := by omega
  rw [guardKey_of_le hk, h, BitVec.ofNat_toNat, BitVec.setWidth_eq]

theorem exec_skp (x : Reg) (s : State) :
    exec (.skp x) s = guardKey (s.reg x) (fun k => .next (s.skipIf (s.key k))) := rfl

theorem exec_sknp (x : Reg) (s : State) :
    exec (.sknp x) s = guardKey (s.reg x) (fun k => .next (s.skipIf (!s.key k))) := rfl

theorem State.firstKey_of_least {s : State} {k : Nibble} (hk : s.key k = true)
    (hleast : ∀ j : Nibble, j.toNat < k.toNat → s.key j = false) : s.firstKey = some k.toNat := by
  refine List.find?_range_eq_some.mpr ⟨by simpa using hk, by simpa using k.isLt, fun j hj => ?_⟩
  have hlow : (BitVec.ofNat 4 j).toNat < k.toNat := by
    rw [BitVec.toNat_ofNat]
    omega
  simp [hleast _ hlow]

theorem exec_ldVxK_of_some {s : State} {k : Nat} (h : s.firstKey = some k) (x : Reg) :
    exec (.ldVxK x) s = done (s.setReg x (BitVec.ofNat 8 k)) := by
  change execLdVxK x s = _
  rw [execLdVxK, h]

theorem exec_ldVxK_of_none {s : State} (h : s.firstKey = none) (x : Reg) : exec (.ldVxK x) s = .next s := by
  change execLdVxK x s = _
  rw [execLdVxK, h]

/-- A write of the keypad keeps a frame that lists it. -/
theorem UnchangedBut.setKeys {regs : List Reg} {parts : List Part} {s t : State} (h : UnchangedBut regs parts s t)
    (hkeys : Part.keypad ∈ parts) (keys : Vector Bool 16) : UnchangedBut regs parts s (t.setKeys keys) :=
  ⟨h.registers, h.index, h.stack, h.delayTimer, h.soundTimer, fun hn => absurd hkeys hn, h.screen, h.memory,
    h.randomSource⟩

end Machine

open Sys2Proof.Machine

/-- Settles O41: V[X] is the key's index, and both instructions are the one skip, under its level and under the negation
(44_keypad_timers.md section 2). -/
theorem keySkips : Obligations.KeySkips := by
  unfold Obligations.KeySkips
  intro x k s h
  refine ⟨decode_encode (.skp x), decode_encode (.sknp x),
    ⟨s.skipIf (s.key k), (exec_skp x s).trans (guardKey_of_key h _), rfl, unchangedBut_skipIf s _⟩,
    ⟨s.skipIf (!s.key k), (exec_sknp x s).trans (guardKey_of_key h _), ?_, unchangedBut_skipIf s _⟩⟩
  rw [State.skipIf_pc]
  cases s.key k <;> rfl

/-- Settles O43: the scan from key 0 up finds the least pressed key (44_keypad_timers.md section 3). -/
theorem waitKeyTakesLeastPressed : Obligations.WaitKeyTakesLeastPressed := by
  unfold Obligations.WaitKeyTakesLeastPressed
  intro x k s hk hleast
  obtain ⟨t, hnext, hreg, hpc, hframe⟩ := done_setReg s x (BitVec.ofNat 8 k.toNat)
  refine ⟨decode_encode (.ldVxK x), t, ?_, ?_, hpc, hframe⟩
  · rw [exec_ldVxK_of_some (State.firstKey_of_least hk hleast), hnext]
  · rw [hreg, BitVec.toNat_ofNat]
    omega

/-- Settles O44: the scan finds no key, and nothing is written (44_keypad_timers.md section 3). -/
theorem waitKeyPolls : Obligations.WaitKeyPolls := by
  unfold Obligations.WaitKeyPolls
  intro x s h
  exact exec_ldVxK_of_none (State.firstKey_eq_none.mpr h) x

/-- Settles O47: the write is of the keypad alone, at that key (60_exceptions.md section 5). -/
theorem hostWritesOneKey : Obligations.HostWritesOneKey := by
  unfold Obligations.HostWritesOneKey
  intro font k pressed s
  refine ⟨s.writeKey k pressed, rfl, ?_, fun j hj => ?_, rfl,
    (UnchangedBut.refl [] [.keypad] s).setKeys List.mem_cons_self _⟩
  · rw [State.key_writeKey, if_pos rfl]
  · rw [State.key_writeKey, if_neg hj]

end Sys2Proof

/-! The obligations on the memory transfers (42_index_memory.md R134, R135, R136; 20_memory.md R65, R162). -/

namespace Sys2Proof

namespace Machine

theorem exec_ldB (x : Reg) (s : State) :
    exec (.ldB x) s = guardTransfer s.i.toNat 3 (done (s.storeBytes s.i.toNat (decimalDigits (s.reg x)))) := rfl

theorem exec_ldMemVx (x : Reg) (s : State) :
    exec (.ldMemVx x) s = guardTransfer s.i.toNat (x.toNat + 1) (done (s.storeBytes s.i.toNat (s.regsUpTo x))) := rfl

theorem exec_ldVxMem (x : Reg) (s : State) :
    exec (.ldVxMem x) s =
      guardTransfer s.i.toNat (x.toNat + 1) (done (s.setRegs 0 (s.readBytes s.i.toNat (x.toNat + 1)))) := rfl

/-- A write of memory keeps a frame that lists it. -/
theorem UnchangedBut.setMem {regs : List Reg} {parts : List Part} {s t : State} (h : UnchangedBut regs parts s t)
    (hmem : Part.memory ∈ parts) (mem : List Host.Cell) : UnchangedBut regs parts s (t.setMem mem) :=
  ⟨h.registers, h.index, h.stack, h.delayTimer, h.soundTimer, h.keypad, h.screen, fun hn => absurd hmem hn,
    h.randomSource⟩

theorem unchangedBut_storeBytes (s : State) (a : Nat) (bytes : List Byte) :
    UnchangedBut [] [.memory] s (s.storeBytes a bytes) := by
  rw [State.storeBytes_eq]
  exact (UnchangedBut.refl [] [.memory] s).setMem List.mem_cons_self _

theorem State.readByte_storeBytes_inside (s : State) (a : Nat) (bytes : List Byte) {k : Nat} (h : k < bytes.length) :
    (s.storeBytes a bytes).readByte (a + k) = bytes.getD k 0x00#8 := by
  rw [State.readByte_storeBytes, if_pos (by omega), Nat.add_sub_cancel_left]

theorem State.readByte_storeBytes_outside (s : State) {a b : Nat} {bytes : List Byte} (h : b < a ∨ a + bytes.length ≤ b) :
    (s.storeBytes a bytes).readByte b = s.readByte b := by
  rw [State.readByte_storeBytes, if_neg (by omega)]

/-- An instruction that ends after one store: the bytes it leaves there and elsewhere, pc, and the frame. -/
theorem done_storeBytes (s : State) (a : Nat) (bytes : List Byte) :
    ∃ t : State, done (s.storeBytes a bytes) = .next t ∧
      (∀ k < bytes.length, t.readByte (a + k) = bytes.getD k 0x00#8) ∧
      (∀ b, b < a ∨ a + bytes.length ≤ b → t.readByte b = s.readByte b) ∧ t.pc = s.pc + 2#16 ∧
      UnchangedBut [] [.memory] s t :=
  ⟨(s.storeBytes a bytes).advance 2#16, rfl, fun _ hk => s.readByte_storeBytes_inside a bytes hk,
    fun _ hb => s.readByte_storeBytes_outside hb, by simp, (unchangedBut_storeBytes s a bytes).setPc _⟩

/-- The digit of weight 10 ^ (2 - j) stands at place j. -/
theorem decimalDigits_getD_toNat (b : Byte) {j : Nat} (hj : j ≤ 2) :
    ((decimalDigits b).getD j 0x00#8).toNat = b.toNat / 10 ^ (2 - j) % 10 := by
  have hb : b.toNat < 256 := b.isLt
  obtain rfl | rfl | rfl : j = 0 ∨ j = 1 ∨ j = 2 := by omega
  all_goals
    simp [decimalDigits]
    omega

theorem State.regsUpTo_getD_reg (s : State) {x r : Reg} (h : r.toNat ≤ x.toNat) :
    (s.regsUpTo x).getD r.toNat 0x00#8 = s.reg r := by
  rw [State.regsUpTo_getD s x h, BitVec.ofNat_toNat, BitVec.setWidth_eq]

/-! What the two stores leave in memory. -/

theorem readByte_of_ldMemVx {x : Reg} {s t : State} (h : exec (.ldMemVx x) s = .next t) {r : Reg}
    (hr : r.toNat ≤ x.toNat) : t.readByte (s.i.toNat + r.toNat) = s.reg r := by
  rw [exec_ldMemVx] at h
  obtain rfl := done_next.mp (guardTransfer_next h).2
  rw [State.readByte_advance, State.readByte_storeBytes_inside _ _ _ (by rw [State.regsUpTo_length]; omega),
    State.regsUpTo_getD_reg s hr]

theorem readByte_of_ldB {x : Reg} {s t : State} (h : exec (.ldB x) s = .next t) {j : Nat} (hj : j ≤ 2) :
    (t.readByte (s.i.toNat + j)).toNat = (s.reg x).toNat / 10 ^ (2 - j) % 10 := by
  rw [exec_ldB] at h
  obtain rfl := done_next.mp (guardTransfer_next h).2
  rw [State.readByte_advance, State.readByte_storeBytes_inside _ _ _ (by rw [decimalDigits_length]; omega),
    decimalDigits_getD_toNat _ hj]

/-- A fetch inside memory: the opcode's two bytes are those at pc and pc + 1. -/
theorem State.fetch_bytes {s : State} (h : s.pc.toNat + 1 ≤ 4095) :
    ∃ w : Word, s.fetch = .opcode w ∧ highByte w = s.readByte s.pc.toNat ∧ lowByte w = s.readByte (s.pc.toNat + 1) :=
  ⟨_, State.fetch_of_le (by omega), highByte_opcodeOfBytes _ _, lowByte_opcodeOfBytes _ _⟩

/-- A run of registers written from V[0] on keeps the frame that lists them. -/
theorem unchangedBut_setRegs (s : State) {x : Reg} {bytes : List Byte} (hlen : bytes.length = x.toNat + 1) :
    UnchangedBut ((List.range (x.toNat + 1)).map (BitVec.ofNat 4)) [] s (s.setRegs 0 bytes) := by
  have hregs : ∀ r : Reg, r ∉ (List.range (x.toNat + 1)).map (BitVec.ofNat 4) → (s.setRegs 0 bytes).reg r = s.reg r := by
    intro r hr
    have habove : ¬ r.toNat < x.toNat + 1 := fun hlt =>
      hr (List.mem_map.mpr ⟨r.toNat, List.mem_range.mpr hlt, by rw [BitVec.ofNat_toNat, BitVec.setWidth_eq]⟩)
    rw [State.reg_setRegs _ _ _ (by omega), if_neg (by omega)]
  rw [State.setRegs_eq] at hregs ⊢
  exact ⟨hregs, fun _ => rfl, fun _ => ⟨rfl, rfl⟩, fun _ => rfl, fun _ => rfl, fun _ => rfl, fun _ _ => rfl,
    fun _ _ => rfl, fun _ => rfl⟩

end Machine

open Sys2Proof.Machine

/-- Settles O33: the store is of the three digits at I, I + 1 and I + 2 (42_index_memory.md R134). -/
theorem storeDecimalDigits : Obligations.StoreDecimalDigits := by
  unfold Obligations.StoreDecimalDigits
  intro x s hin
  obtain ⟨t, hdone, -, hother, hpc, hframe⟩ := done_storeBytes s s.i.toNat (decimalDigits (s.reg x))
  have hnext : exec (.ldB x) s = .next t := by rw [exec_ldB, guardTransfer_of_in (.inr (by omega)), hdone]
  have hdigit {j : Nat} (hj : j ≤ 2) := readByte_of_ldB hnext hj
  have hbyte : (s.reg x).toNat < 256 := (s.reg x).isLt
  refine ⟨decode_encode (.ldB x), t, hnext, ?_, ?_, ?_, fun a ha => hother a ?_, hpc, hframe⟩
  · have hundreds := hdigit (show 0 ≤ 2 by decide)
    simp only [Nat.add_zero] at hundreds
    omega
  · simpa using hdigit (show 1 ≤ 2 by decide)
  · simpa using hdigit (show 2 ≤ 2 by decide)
  · rw [decimalDigits_length]
    omega

/-- Settles O34: the store is of V[0] to V[X] at I to I + X (42_index_memory.md R135). -/
theorem storeRegisterRange : Obligations.StoreRegisterRange := by
  unfold Obligations.StoreRegisterRange
  intro x s hin
  obtain ⟨t, hdone, -, hother, hpc, hframe⟩ := done_storeBytes s s.i.toNat (s.regsUpTo x)
  have hnext : exec (.ldMemVx x) s = .next t := by rw [exec_ldMemVx, guardTransfer_of_in (.inr (by omega)), hdone]
  refine ⟨decode_encode (.ldMemVx x), t, hnext, fun r hr => readByte_of_ldMemVx hnext hr, fun a ha => hother a ?_, hpc,
    hframe⟩
  rw [State.regsUpTo_length]
  omega

/-- Settles O35: the run of registers written is V[0] to V[X], with the bytes read at I to I + X (42_index_memory.md
R136). -/
theorem loadRegisterRange : Obligations.LoadRegisterRange := by
  unfold Obligations.LoadRegisterRange
  intro x s hin
  have hlen : (s.readBytes s.i.toNat (x.toNat + 1)).length = x.toNat + 1 := s.readBytes_length _ _
  refine ⟨decode_encode (.ldVxMem x), (s.setRegs 0 (s.readBytes s.i.toNat (x.toNat + 1))).advance 2#16, ?_, fun r hr => ?_,
    fun r hr => ?_, ?_, (unchangedBut_setRegs s hlen).setPc _⟩
  · rw [exec_ldVxMem, guardTransfer_of_in (.inr (by omega))]
    rfl
  · rw [State.reg_advance, State.reg_setRegs _ _ _ (by omega), if_pos (by omega), Nat.sub_zero,
      State.readBytes_getD _ _ (by omega)]
  · rw [State.reg_advance, State.reg_setRegs _ _ _ (by omega), if_neg (by omega)]
  · rw [State.advance_pc, State.setRegs_eq]

/-- Settles O37: the fetch reads the two bytes as the store left them (20_memory.md section 8). -/
theorem storeIsSeenByNextFetch : Obligations.StoreIsSeenByNextFetch := by
  unfold Obligations.StoreIsSeenByNextFetch
  intro x s t u hpc hhigh hlow
  obtain ⟨w, hfetch, hw, hw'⟩ := State.fetch_bytes hpc
  rw [hhigh] at hw
  rw [hlow] at hw'
  refine ⟨fun hstore => ⟨w, hfetch, fun r hr hat => ?_, fun r hr hat => ?_⟩,
    fun hstore => ⟨w, hfetch, fun j hj hat => ?_, fun j hj hat => ?_⟩⟩
  · rw [hw, hat, readByte_of_ldMemVx hstore hr]
  · rw [hw', hat, readByte_of_ldMemVx hstore hr]
  · rw [hw, hat, readByte_of_ldB hstore hj]
  · rw [hw', hat, readByte_of_ldB hstore hj]

end Sys2Proof

/-! The obligations on DXYN (43_display.md R140, R142, R143), from the laws of the sprite loops. -/

namespace Sys2Proof

namespace Machine

theorem State.reg_setReg_of_ne (s : State) {x r : Reg} (h : r ≠ x) (b : Byte) : (s.setReg x b).reg r = s.reg r := by
  rw [State.reg_setReg, if_neg h]

/-- The framebuffer and the collision that DXYN leaves: the rows on the screen drawn at the old (V[X], V[Y]) (R142). -/
def State.drawn (s : State) (x y : Reg) (n : Nibble) : List Host.Cell × Bool :=
  s.drawSprite (s.reg x).toNat (s.reg y).toNat s.i.toNat (rowsOnScreen s y n)

theorem exec_drw (x y : Reg) (n : Nibble) (s : State) :
    exec (.drw x y n) s = guardTransfer s.i.toNat (rowsOnScreen s y n)
      (done ((s.setFb (s.drawn x y n).1).setReg vf (flagByte (s.drawn x y n).2))) := rfl

/-- A set bit of the sprite, on the screen, falls on cell k. -/
def State.Hits (s : State) (x y : Reg) (n : Nibble) (k : Nat) : Prop :=
  s.spriteHits (s.reg x).toNat (s.reg y).toNat s.i.toNat (rowsOnScreen s y n) k

theorem State.drawn_of_hits {s : State} {x y : Reg} {n : Nibble} {k : Nat} (h : s.Hits x y n k) :
    Framebuffer.read (s.drawn x y n).1 k = Framebuffer.read s.fb k ^^^ 0xFF#8 :=
  ((s.drawSprite_spec _ _ _ _).1 k).1 h

theorem State.drawn_of_not_hits {s : State} {x y : Reg} {n : Nibble} {k : Nat} (h : ¬ s.Hits x y n k) :
    Framebuffer.read (s.drawn x y n).1 k = Framebuffer.read s.fb k :=
  ((s.drawSprite_spec _ _ _ _).1 k).2 h

theorem State.drawn_collision (s : State) (x y : Reg) (n : Nibble) :
    (s.drawn x y n).2 = true ↔ ∃ k, s.Hits x y n k ∧ Framebuffer.read s.fb k = 0xFF#8 :=
  (s.drawSprite_spec _ _ _ _).2

theorem State.Hits.row_lt {s : State} {x y : Reg} {n : Nibble} {k : Nat} (h : s.Hits x y n k) : k / 64 < 32 := by
  obtain ⟨hge, hlt, -⟩ := h
  rw [rowsOnScreen] at hlt
  omega

/-- On the screen, the cells that set bits fall on are the pixels that the sprite covers: no clipped row is drawn. -/
theorem State.hits_cellIndex_iff (s : State) (x y : Reg) (n : Nibble) {col row : Nat} (hcol : col < 64) (hrow : row < 32) :
    s.Hits x y n (cellIndex col row) ↔ SpriteCovers s x y n col row := by
  unfold State.Hits State.spriteHits rowHits SpriteCovers rowsOnScreen spriteBit
  rw [cellIndex_div row hcol, cellIndex_mod row hcol]
  constructor
  · rintro ⟨hy, hy', -, hx, hx', hbit⟩
    exact ⟨hx, hx', hy, by omega, hbit⟩
  · rintro ⟨hx, hx', hy, hy', hbit⟩
    exact ⟨hy, by omega, rfl, hx, hx', hbit⟩

theorem cellIndex_mod_div (k : Nat) : cellIndex (k % 64) (k / 64) = k := by
  change k / 64 * 64 + k % 64 = k
  omega

theorem State.exists_hits_iff (s : State) (x y : Reg) (n : Nibble) (p : Nat → Prop) :
    (∃ k, s.Hits x y n k ∧ p k) ↔
      ∃ col row : Nat, col < 64 ∧ row < 32 ∧ SpriteCovers s x y n col row ∧ p (cellIndex col row) := by
  constructor
  · rintro ⟨k, hk, hp⟩
    have hcol : k % 64 < 64 := Nat.mod_lt _ (by decide)
    refine ⟨k % 64, k / 64, hcol, hk.row_lt, ?_, ?_⟩
    · rwa [← s.hits_cellIndex_iff x y n hcol hk.row_lt, cellIndex_mod_div]
    · rwa [cellIndex_mod_div]
  · rintro ⟨col, row, hcol, hrow, hcovers, hp⟩
    exact ⟨cellIndex col row, (s.hits_cellIndex_iff x y n hcol hrow).mpr hcovers, hp⟩

/-- The sprite falls on the same cells in a state that differs in VF and the screen alone, X and Y not being VF. -/
theorem State.hits_iff_of_drawn (s : State) {x y : Reg} (n : Nibble) (hx : x ≠ 0xF#4) (hy : y ≠ 0xF#4)
    (fb : List Host.Cell) (b : Byte) (d : Word) (k : Nat) :
    (((s.setFb fb).setReg vf b).advance d).Hits x y n k ↔ s.Hits x y n k := by
  have hregx : (((s.setFb fb).setReg vf b).advance d).reg x = s.reg x := State.reg_setReg_of_ne _ hx b
  have hregy : (((s.setFb fb).setReg vf b).advance d).reg y = s.reg y := State.reg_setReg_of_ne _ hy b
  unfold State.Hits rowsOnScreen
  rw [hregx, hregy]
  rfl

theorem drawn_of_next {x y : Reg} {n : Nibble} {s t : State} (h : exec (.drw x y n) s = .next t) :
    t = ((s.setFb (s.drawn x y n).1).setReg vf (flagByte (s.drawn x y n).2)).advance 2#16 := by
  rw [exec_drw] at h
  exact done_next.mp (guardTransfer_next h).2

theorem flagByte_eq_one {c : Bool} : flagByte c = 1#8 ↔ c = true := by
  cases c <;> decide

theorem flagByte_eq_zero {c : Bool} : flagByte c = 0#8 ↔ ¬ c = true := by
  cases c <;> decide

end Machine

open Sys2Proof.Machine

/-- Settles O39: the loops invert the cells under the set bits on the screen, and the flag written last is that one of them
was on (43_display.md R142, R143). -/
theorem drawInvertsCoveredPixels : Obligations.DrawInvertsCoveredPixels := by
  unfold Obligations.DrawInvertsCoveredPixels
  intro x y n s hin
  have hframe : UnchangedBut [0xF#4] [.screen] s ((s.setFb (s.drawn x y n).1).setReg vf (flagByte (s.drawn x y n).2)) :=
    ((UnchangedBut.refl [0xF#4] [.screen] s).setFb List.mem_cons_self _).setReg List.mem_cons_self _
  have hflag : (((s.setFb (s.drawn x y n).1).setReg vf (flagByte (s.drawn x y n).2)).advance 2#16).reg 0xF#4 =
      flagByte (s.drawn x y n).2 := by simp [vf]
  have hcollision := (s.drawn_collision x y n).trans (s.exists_hits_iff x y n _)
  refine ⟨decode_encode (.drw x y n), _, (exec_drw x y n s).trans (guardTransfer_of_in hin _),
    fun col row hcol hrow hcov => ?_, fun col row hcol hrow hcov => ?_, fun k hk => ?_, fun hon => ?_, fun hoff => ?_, rfl,
    hframe.setPc _⟩
  · exact State.drawn_of_hits ((s.hits_cellIndex_iff x y n hcol hrow).mpr hcov)
  · exact State.drawn_of_not_hits fun hh => hcov ((s.hits_cellIndex_iff x y n hcol hrow).mp hh)
  · refine State.drawn_of_not_hits fun hh => ?_
    have hrow := hh.row_lt
    omega
  · exact hflag.trans (flagByte_eq_one.mpr (hcollision.mpr hon))
  · exact hflag.trans (flagByte_eq_zero.mpr fun hc => hoff (hcollision.mp hc))

/-- Settles O40: both draws fall on the same cells, which the first turns on and the second off again (43_display.md section 3,
properties (d)). -/
theorem drawTwiceRestoresBlankScreen : Obligations.DrawTwiceRestoresBlankScreen := by
  unfold Obligations.DrawTwiceRestoresBlankScreen
  intro x y n s t u hx hy hblank hfirst hsecond
  have ht := drawn_of_next hfirst
  have hu := drawn_of_next hsecond
  have hfb : t.fb = (s.drawn x y n).1 := by rw [ht]; rfl
  have hsame (k : Nat) : t.Hits x y n k ↔ s.Hits x y n k := by
    rw [ht]
    exact s.hits_iff_of_drawn n hx hy _ _ _ k
  have hon {k : Nat} (hk : s.Hits x y n k) : Framebuffer.read t.fb k = 0xFF#8 := by
    rw [hfb, State.drawn_of_hits hk, hblank]
    rfl
  have hoff {k : Nat} (hk : ¬ s.Hits x y n k) : Framebuffer.read t.fb k = 0x00#8 := by
    rw [hfb, State.drawn_of_not_hits hk, hblank]
  have hcollision : (t.drawn x y n).2 = true ↔
      ∃ col row : Nat, col < 64 ∧ row < 32 ∧ SpriteCovers s x y n col row := by
    calc (t.drawn x y n).2 = true ↔ ∃ k, t.Hits x y n k ∧ Framebuffer.read t.fb k = 0xFF#8 := t.drawn_collision x y n
      _ ↔ ∃ k, s.Hits x y n k ∧ True :=
        exists_congr fun k => ⟨fun h => ⟨(hsame k).mp h.1, trivial⟩, fun h => ⟨(hsame k).mpr h.1, hon h.1⟩⟩
      _ ↔ _ := by rw [s.exists_hits_iff x y n fun _ => True]; simp only [and_true]
  have hflag : u.reg 0xF#4 = flagByte (t.drawn x y n).2 := by
    rw [hu]
    simp [vf]
  refine ⟨?_, fun k => ?_, ?_, ?_⟩
  · have hnone : ¬ (s.drawn x y n).2 = true := by
      rw [s.drawn_collision]
      rintro ⟨k, -, hk⟩
      rw [hblank] at hk
      exact absurd hk (by decide)
    rw [ht]
    simpa [vf] using flagByte_eq_zero.mpr hnone
  · have hufb : Framebuffer.read u.fb k = Framebuffer.read (t.drawn x y n).1 k := by rw [hu]; rfl
    by_cases hk : s.Hits x y n k
    · rw [hufb, State.drawn_of_hits ((hsame k).mpr hk), hon hk]
      rfl
    · rw [hufb, State.drawn_of_not_hits (fun hh => hk ((hsame k).mp hh)), hoff hk]
  · rw [hflag, flagByte_eq_one, hcollision]
  · rw [hflag, flagByte_eq_zero, hcollision]

end Sys2Proof

/-! The faults of the instructions, said once (60_exceptions.md R160 to R165): which instruction raises which, when, with which
value. -/

namespace Sys2Proof

namespace Machine

/-- Instruction i raises f in s: one constructor per instruction that can fault. -/
inductive Raises (s : State) : Instr → Fault → Prop where
  | call (nnn : Imm12) (full : s.sp.val = 16) : Raises s (.call nnn) (.stackFault .overflow (encode (.call nnn)))
  | ret (empty : s.sp.val = 0) : Raises s .ret (.stackFault .underflow 0x00EE#16)
  | skp (x : Reg) (above : 15 < (s.reg x).toNat) : Raises s (.skp x) (.keyIndexFault (s.reg x))
  | sknp (x : Reg) (above : 15 < (s.reg x).toNat) : Raises s (.sknp x) (.keyIndexFault (s.reg x))
  | ldB (x : Reg) (out : 4095 < s.i.toNat + 2) : Raises s (.ldB x) (.addressFault (max s.i.toNat 4096))
  | ldMemVx (x : Reg) (out : 4095 < s.i.toNat + x.toNat) : Raises s (.ldMemVx x) (.addressFault (max s.i.toNat 4096))
  | ldVxMem (x : Reg) (out : 4095 < s.i.toNat + x.toNat) : Raises s (.ldVxMem x) (.addressFault (max s.i.toNat 4096))
  | drw (x y : Reg) (n : Nibble) (rows : 0 < rowsOnScreen s y n) (out : 4096 < s.i.toNat + rowsOnScreen s y n) :
      Raises s (.drw x y n) (.addressFault (max s.i.toNat 4096))

theorem exec_of_raises {i : Instr} {s : State} {f : Fault} (h : Raises s i f) : exec i s = .fault f := by
  cases h with
  | call nnn full => exact exec_call_of_full full nnn
  | ret empty => exact exec_ret_of_empty empty
  | skp x above => exact (exec_skp x s).trans (guardKey_of_gt above _)
  | sknp x above => exact (exec_sknp x s).trans (guardKey_of_gt above _)
  | ldB x out => exact (exec_ldB x s).trans (guardTransfer_of_out (by decide) (by omega) _)
  | ldMemVx x out => exact (exec_ldMemVx x s).trans (guardTransfer_of_out (by omega) (by omega) _)
  | ldVxMem x out => exact (exec_ldVxMem x s).trans (guardTransfer_of_out (by omega) (by omega) _)
  | drw x y n rows out => exact (exec_drw x y n s).trans (guardTransfer_of_out (by omega) out _)

/-- An instruction answers a next state where it does not raise a fault: none is refused. -/
theorem exec_next_or_raises (i : Instr) (s : State) : (∃ t : State, exec i s = .next t) ∨ ∃ f : Fault, Raises s i f := by
  cases i with
  | call nnn =>
    by_cases hfull : s.sp.val = 16
    · exact .inr ⟨_, .call nnn hfull⟩
    · exact .inl ⟨_, exec_call_of_room (by omega) nnn⟩
  | ret =>
    by_cases hempty : s.sp.val = 0
    · exact .inr ⟨_, .ret hempty⟩
    · obtain ⟨k, hk⟩ := Nat.exists_eq_succ_of_ne_zero hempty
      exact .inl ⟨_, exec_ret_of_used (by omega) hk⟩
  | skp x =>
    by_cases habove : 15 < (s.reg x).toNat
    · exact .inr ⟨_, .skp x habove⟩
    · exact .inl ⟨_, (exec_skp x s).trans (guardKey_of_le (by omega) _)⟩
  | sknp x =>
    by_cases habove : 15 < (s.reg x).toNat
    · exact .inr ⟨_, .sknp x habove⟩
    · exact .inl ⟨_, (exec_sknp x s).trans (guardKey_of_le (by omega) _)⟩
  | ldVxK x =>
    cases hfirst : s.firstKey with
    | some k => exact .inl ⟨_, exec_ldVxK_of_some hfirst x⟩
    | none => exact .inl ⟨_, exec_ldVxK_of_none hfirst x⟩
  | ldB x =>
    by_cases hout : 4095 < s.i.toNat + 2
    · exact .inr ⟨_, .ldB x hout⟩
    · exact .inl ⟨_, (exec_ldB x s).trans (guardTransfer_of_in (by omega) _)⟩
  | ldMemVx x =>
    by_cases hout : 4095 < s.i.toNat + x.toNat
    · exact .inr ⟨_, .ldMemVx x hout⟩
    · exact .inl ⟨_, (exec_ldMemVx x s).trans (guardTransfer_of_in (by omega) _)⟩
  | ldVxMem x =>
    by_cases hout : 4095 < s.i.toNat + x.toNat
    · exact .inr ⟨_, .ldVxMem x hout⟩
    · exact .inl ⟨_, (exec_ldVxMem x s).trans (guardTransfer_of_in (by omega) _)⟩
  | drw x y n =>
    by_cases hout : 0 < rowsOnScreen s y n ∧ 4096 < s.i.toNat + rowsOnScreen s y n
    · exact .inr ⟨_, .drw x y n hout.1 hout.2⟩
    · exact .inl ⟨_, (exec_drw x y n s).trans (guardTransfer_of_in (by omega) _)⟩
  | cls | jp _ | jpV0 _ | seImm _ _ | sneImm _ _ | seReg _ _ | sneReg _ _ => exact .inl ⟨_, rfl⟩
  | ldImm _ _ | addImm _ _ | ldReg _ _ | orReg _ _ | andReg _ _ | xorReg _ _ | rnd _ _ => exact .inl ⟨_, rfl⟩
  | addReg _ _ | sub _ _ | shr _ _ | subn _ _ | shl _ _ => exact .inl ⟨_, rfl⟩
  | ldI _ | addI _ | ldF _ | ldVxDt _ | ldDtVx _ | ldStVx _ => exact .inl ⟨_, rfl⟩

theorem exec_not_refused (i : Instr) (s : State) (r : Refusal) : exec i s ≠ .refused r := by
  intro hrefused
  obtain ⟨t, hnext⟩ | ⟨f, hraises⟩ := exec_next_or_raises i s
  · rw [hnext] at hrefused
    cases hrefused
  · rw [exec_of_raises hraises] at hrefused
    cases hrefused

theorem exec_fault_iff {i : Instr} {s : State} {f : Fault} : exec i s = .fault f ↔ Raises s i f := by
  refine ⟨fun hfault => ?_, exec_of_raises⟩
  obtain ⟨t, hnext⟩ | ⟨g, hraises⟩ := exec_next_or_raises i s
  · rw [hnext] at hfault
    cases hfault
  · rw [exec_of_raises hraises] at hfault
    injection hfault with hfault
    exact hfault ▸ hraises

/-- No condition of a fault mentions the keypad or the random source. -/
theorem Raises.withKeysAndDraws {s : State} {i : Instr} {f : Fault} (h : Raises s i f) (keys : Vector Bool 16)
    (draws : Nat) : Raises { s with keys := keys, draws := draws } i f := by
  cases h with
  | call nnn full => exact .call nnn full
  | ret empty => exact .ret empty
  | skp x above => exact .skp x above
  | sknp x above => exact .sknp x above
  | ldB x out => exact .ldB x out
  | ldMemVx x out => exact .ldMemVx x out
  | ldVxMem x out => exact .ldVxMem x out
  | drw x y n rows out => exact .drw x y n rows out

end Machine

open Sys2Proof.Machine

/-- Settles O36: each transfer checks all its addresses first, DXYN those of the rows on the screen (42_index_memory.md section
1, 43_display.md section 3). -/
theorem transferOutsideMemoryFaults : Obligations.TransferOutsideMemoryFaults := by
  unfold Obligations.TransferOutsideMemoryFaults
  intro x y n s
  exact ⟨fun hout => exec_of_raises (.ldB x hout),
    fun hout => ⟨exec_of_raises (.ldMemVx x hout), exec_of_raises (.ldVxMem x hout)⟩,
    fun hrows hout => exec_of_raises (.drw x y n hrows hout)⟩

/-- Settles O42: both instructions check the index first (44_keypad_timers.md section 1). -/
theorem keyIndexAboveFifteenFaults : Obligations.KeyIndexAboveFifteenFaults := by
  unfold Obligations.KeyIndexAboveFifteenFaults
  intro x s habove
  exact ⟨exec_of_raises (.skp x habove), exec_of_raises (.sknp x habove)⟩

/-- Settles O54: an instruction that answers no next state raises one of the faults of its row (60_exceptions.md sections 1
and 2). -/
theorem onlyTheNamedInstructionsFault : Obligations.OnlyTheNamedInstructionsFault := by
  unfold Obligations.OnlyTheNamedInstructionsFault
  intro i s
  refine ⟨exec_not_refused i s, fun f hf => ?_⟩
  cases exec_fault_iff.mp hf with
  | call nnn full => exact .inl ⟨nnn, rfl, full, rfl⟩
  | ret empty => exact .inr (.inl ⟨rfl, empty, rfl⟩)
  | skp x above => exact .inr (.inr (.inl ⟨x, .inl rfl, above, rfl⟩))
  | sknp x above => exact .inr (.inr (.inl ⟨x, .inr rfl, above, rfl⟩))
  | ldB x out => exact .inr (.inr (.inr (.inl ⟨x, rfl, out, rfl⟩)))
  | ldMemVx x out => exact .inr (.inr (.inr (.inr (.inl ⟨x, .inl rfl, out, rfl⟩))))
  | ldVxMem x out => exact .inr (.inr (.inr (.inr (.inl ⟨x, .inr rfl, out, rfl⟩))))
  | drw x y n rows out => exact .inr (.inr (.inr (.inr (.inr ⟨x, y, n, rfl, rows, out, rfl⟩))))

/-- Settles O55: the fetch, the decoder and the conditions of the instructions' faults read neither the keypad nor the random
source (60_exceptions.md section 2). -/
theorem faultIgnoresKeysAndRandomSource : Obligations.FaultIgnoresKeysAndRandomSource := by
  unfold Obligations.FaultIgnoresKeysAndRandomSource
  intro s keys draws f hfault
  have hfetch : State.fetch { s with keys := keys, draws := draws } = s.fetch := rfl
  obtain ⟨a, hout, rfl⟩ | ⟨w, v, hw, hv, rfl⟩ | ⟨w, i, hw, hi, hexec⟩ := step_fault hfault
  · exact step_of_outside (hfetch.trans hout)
  · exact step_of_illegal (hfetch.trans hw) hv
  · rw [step_of_instr (hfetch.trans hw) hi]
    exact exec_fault_iff.mpr ((exec_fault_iff.mp hexec).withKeysAndDraws keys draws)

end Sys2Proof

/-! What an instruction that answers a next state does to the Machine, said once (10_state.md R36): which fields it writes.
The promises about every instruction and the invariants are read off it. -/

namespace Sys2Proof

namespace Machine

/-- The effect of instruction i on s where it answers t: one constructor per set of fields written. -/
inductive Effect (s : State) : Instr → State → Prop where
  /-- Jumps and skips write pc alone; the FX0A that finds no key writes it with itself. -/
  | jump {i : Instr} {target : Word} (transfers : transfersControl i)
      (reach : target = s.pc ∨ target = s.pc + 2#16 ∨ target = s.pc + 4#16 ∨ target.toNat ≤ 0x10FE) :
      Effect s i (s.setPc target)
  | call (nnn : Imm12) (room : s.sp.val < 16) :
      Effect s (.call nnn)
        ((s.setStack (s.stack.set s.sp.val s.pc room) ⟨s.sp.val + 1, by omega⟩).setPc (addressOf nnn))
  | ret {k : Nat} (hk : k < 16) (used : s.sp.val = k + 1) :
      Effect s .ret ((s.setStack s.stack ⟨k, by omega⟩).setPc (s.stack[k]'hk + 2#16))
  | registers {i : Instr} {v : Vector Byte 16}
      (named : ∀ r : Reg, ¬ mayWriteReg i r → State.reg { s with v := v } r = s.reg r) :
      Effect s i (State.advance { s with v := v } 2#16)
  | random (x : Reg) (kk : Byte) :
      Effect s (.rnd x kk) ((s.setReg x (Config.rnd s.draws &&& kk)).countDraw.advance 2#16)
  | index {i : Instr} {a : Word} (writer : (∃ nnn, i = .ldI nnn) ∨ (∃ x, i = .addI x) ∨ ∃ x, i = .ldF x) :
      Effect s i ((s.setI a).advance 2#16)
  | delayTimer (x : Reg) : Effect s (.ldDtVx x) ((s.setDt (s.reg x)).advance 2#16)
  | soundTimer (x : Reg) : Effect s (.ldStVx x) ((s.setSt (s.reg x)).advance 2#16)
  | clear : Effect s .cls ((s.setFb []).advance 2#16)
  | draw (x y : Reg) (n : Nibble) :
      Effect s (.drw x y n) (((s.setFb (s.drawn x y n).1).setReg vf (flagByte (s.drawn x y n).2)).advance 2#16)
  | store {i : Instr} {bytes : List Byte} (writer : (∃ x, i = .ldB x) ∨ ∃ x, i = .ldMemVx x)
      (inside : s.i.toNat + bytes.length ≤ 4096) :
      Effect s i ((s.storeBytes s.i.toNat bytes).advance 2#16)

theorem Effect.skip {s t : State} {i : Instr} (hi : transfersControl i) {taken : Bool}
    (h : .next (s.skipIf taken) = (.next t : StepOutcome)) : Effect s i t := by
  injection h with h
  subst h
  refine .jump hi ?_
  cases taken
  · exact .inr (.inl rfl)
  · exact .inr (.inr (.inl rfl))

theorem Effect.farJump {s t : State} {i : Instr} (hi : transfersControl i) {target : Word} (hreach : target.toNat ≤ 0x10FE)
    (h : .next (s.setPc target) = (.next t : StepOutcome)) : Effect s i t := by
  injection h with h
  subst h
  exact .jump hi (.inr (.inr (.inr hreach)))

/-- One register written, which the instruction names. -/
theorem Effect.setReg {s t : State} {i : Instr} {x : Reg} (hx : mayWriteReg i x) {b : Byte}
    (h : done (s.setReg x b) = .next t) : Effect s i t := by
  obtain rfl := done_next.mp h
  exact .registers fun r hr => s.reg_setReg_of_ne (fun e : r = x => hr (e ▸ hx)) b

/-- A result and then the flag, both registers named by the instruction. -/
theorem Effect.setResultThenFlag {s t : State} {i : Instr} {x : Reg} (hx : mayWriteReg i x) (hf : mayWriteReg i vf)
    {b f : Byte} (h : done (s.setResultThenFlag x b f) = .next t) : Effect s i t := by
  obtain rfl := done_next.mp h
  refine .registers fun r hr => ?_
  have hrx : r ≠ x := fun e => hr (e ▸ hx)
  have hrf : r ≠ vf := fun e => hr (e ▸ hf)
  exact (State.reg_setReg_of_ne _ hrf f).trans (s.reg_setReg_of_ne hrx b)

/-- FX65 writes V[0] to V[X]. -/
theorem Effect.setRegs {s t : State} {x : Reg} {bytes : List Byte} (hlen : bytes.length = x.toNat + 1)
    (h : done (s.setRegs 0 bytes) = .next t) : Effect s (.ldVxMem x) t := by
  obtain rfl := done_next.mp h
  rw [State.setRegs_eq]
  refine .registers fun r hr => ?_
  have habove : ¬ r.toNat ≤ x.toNat := hr
  rw [← State.setRegs_eq, State.reg_setRegs _ _ _ (by have := x.isLt; omega), if_neg (by omega)]

theorem Effect.setI {s t : State} {i : Instr} {a : Word}
    (hi : (∃ nnn, i = .ldI nnn) ∨ (∃ x, i = .addI x) ∨ ∃ x, i = .ldF x) (h : done (s.setI a) = .next t) : Effect s i t := by
  obtain rfl := done_next.mp h
  exact .index hi

theorem Effect.storeBytes {s t : State} {i : Instr} {n : Nat} {bytes : List Byte}
    (hi : (∃ x, i = .ldB x) ∨ ∃ x, i = .ldMemVx x) (hn : n ≠ 0) (hlen : bytes.length = n)
    (h : guardTransfer s.i.toNat n (done (s.storeBytes s.i.toNat bytes)) = .next t) : Effect s i t := by
  obtain ⟨hin, hdone⟩ := guardTransfer_next h
  obtain rfl := done_next.mp hdone
  exact .store hi (by omega)

/-- Every next state of an instruction is its effect. -/
theorem exec_effect {i : Instr} {s t : State} (h : exec i s = .next t) : Effect s i t := by
  cases i with
  | cls =>
    obtain rfl := done_next.mp h
    exact .clear
  | ret =>
    by_cases hused : s.sp.val = 0
    · rw [exec_ret_of_empty hused] at h
      cases h
    · obtain ⟨k, hk⟩ := Nat.exists_eq_succ_of_ne_zero hused
      rw [exec_ret_of_used (by omega) hk] at h
      injection h with h
      subst h
      exact .ret _ hk
  | call nnn =>
    by_cases hfull : s.sp.val = 16
    · rw [exec_call_of_full hfull] at h
      cases h
    · rw [exec_call_of_room (by omega)] at h
      injection h with h
      subst h
      exact .call nnn _
  | jp nnn => exact .farJump trivial (by rw [addressOf_toNat]; omega) h
  | jpV0 nnn => exact .farJump trivial (by rw [addressOf_add_widen_toNat]; omega) h
  | seImm _ _ | sneImm _ _ | seReg _ _ | sneReg _ _ => exact .skip trivial h
  | skp x =>
    rw [exec_skp] at h
    exact .skip trivial (guardKey_next h).2
  | sknp x =>
    rw [exec_sknp] at h
    exact .skip trivial (guardKey_next h).2
  | ldImm _ _ | addImm _ _ | ldReg _ _ | orReg _ _ | andReg _ _ | xorReg _ _ | ldVxDt _ => exact .setReg rfl h
  | addReg _ _ | sub _ _ | shr _ _ | subn _ _ | shl _ _ => exact .setResultThenFlag (.inl rfl) (.inr rfl) h
  | rnd x kk =>
    obtain rfl := done_next.mp h
    exact .random x kk
  | ldVxK x =>
    cases hfirst : s.firstKey with
    | some k =>
      rw [exec_ldVxK_of_some hfirst] at h
      exact .setReg rfl h
    | none =>
      rw [exec_ldVxK_of_none hfirst] at h
      injection h with h
      subst h
      exact .jump (target := s.pc) trivial (.inl rfl)
  | ldI nnn => exact .setI (.inl ⟨nnn, rfl⟩) h
  | addI x => exact .setI (.inr (.inl ⟨x, rfl⟩)) h
  | ldF x => exact .setI (.inr (.inr ⟨x, rfl⟩)) h
  | ldDtVx x =>
    obtain rfl := done_next.mp h
    exact .delayTimer x
  | ldStVx x =>
    obtain rfl := done_next.mp h
    exact .soundTimer x
  | drw x y n =>
    rw [exec_drw] at h
    obtain rfl := done_next.mp (guardTransfer_next h).2
    exact .draw x y n
  | ldB x => exact .storeBytes (.inl ⟨x, rfl⟩) (by decide) (decimalDigits_length _) h
  | ldMemVx x => exact .storeBytes (.inr ⟨x, rfl⟩) (Nat.succ_ne_zero _) (s.regsUpTo_length x) h
  | ldVxMem x => exact .setRegs (s.readBytes_length _ _) (guardTransfer_next h).2

end Machine

open Sys2Proof.Machine

/-- Settles O48: FX15 and FX18 are the only effects that write a timer, and none writes the keypad (40_flow.md section 1). -/
theorem onlyTimerWritesChangeTimers : Obligations.OnlyTimerWritesChangeTimers := by
  unfold Obligations.OnlyTimerWritesChangeTimers
  intro i s t h
  cases exec_effect h with
  | delayTimer x => exact ⟨rfl, fun hne => absurd rfl (hne x), fun _ => rfl⟩
  | soundTimer x => exact ⟨rfl, fun _ => rfl, fun hne => absurd rfl (hne x)⟩
  | store => simp
  | jump | call | ret | registers | random | index | clear | draw => exact ⟨rfl, fun _ => rfl, fun _ => rfl⟩

/-- Settles O49: the store is the only effect that writes memory (10_state.md section 13). -/
theorem onlyStoresChangeMemory : Obligations.OnlyStoresChangeMemory := by
  unfold Obligations.OnlyStoresChangeMemory
  intro i s t h hdigits hrange
  cases exec_effect h with
  | store writer =>
    obtain ⟨x, hi⟩ | ⟨x, hi⟩ := writer
    · exact absurd hi (hdigits x)
    · exact absurd hi (hrange x)
  | jump | call | ret | registers | random | index | delayTimer | soundTimer | clear | draw => exact fun _ => rfl

/-- Settles O50: the clear and the draw are the only effects that write the framebuffer (10_state.md section 8). -/
theorem onlyClearAndDrawChangeScreen : Obligations.OnlyClearAndDrawChangeScreen := by
  unfold Obligations.OnlyClearAndDrawChangeScreen
  intro i s t h hclear hdraw
  cases exec_effect h with
  | clear => exact absurd rfl hclear
  | draw x y n => exact absurd rfl (hdraw x y n)
  | store => intro k; simp
  | jump | call | ret | registers | random | index | delayTimer | soundTimer => exact fun _ => rfl

/-- Settles O51: the call and the return are the only effects that write the call stack, and one effect writes I
(10_state.md sections 4 and 5). -/
theorem stackAndIndexHaveFewWriters : Obligations.StackAndIndexHaveFewWriters := by
  unfold Obligations.StackAndIndexHaveFewWriters
  intro i s t h
  cases exec_effect h with
  | call nnn => exact ⟨fun hcall => absurd rfl (hcall nnn), fun _ _ _ => rfl⟩
  | ret => exact ⟨fun _ hret => absurd rfl hret, fun _ _ _ => rfl⟩
  | index writer =>
    refine ⟨fun _ _ => ⟨rfl, rfl⟩, fun hldI haddI hldF => ?_⟩
    obtain ⟨nnn, hi⟩ | ⟨x, hi⟩ | ⟨x, hi⟩ := writer
    · exact absurd hi (hldI nnn)
    · exact absurd hi (haddI x)
    · exact absurd hi (hldF x)
  | store => simp
  | jump | registers | random | delayTimer | soundTimer | clear | draw =>
    exact ⟨fun _ _ => ⟨rfl, rfl⟩, fun _ _ _ => rfl⟩

/-- Settles O52: the effects that write registers write those the instruction names (10_state.md sections 2 and 13). -/
theorem registersChangeOnlyAsNamed : Obligations.RegistersChangeOnlyAsNamed := by
  unfold Obligations.RegistersChangeOnlyAsNamed
  intro i s t r h hnot
  cases exec_effect h with
  | registers named => exact named r hnot
  | random x kk => exact s.reg_setReg_of_ne hnot _
  | draw x y n => exact State.reg_setReg_of_ne _ hnot _
  | store => simp
  | jump | call | ret | index | delayTimer | soundTimer | clear => rfl

/-- Settles O53: every effect but a jump, a call and a return ends by moving pc by 2 (40_flow.md section 4). -/
theorem otherInstructionsMoveToNext : Obligations.OtherInstructionsMoveToNext := by
  unfold Obligations.OtherInstructionsMoveToNext
  intro i s t h hstays
  cases exec_effect h with
  | jump transfers => exact absurd transfers hstays
  | call | ret => exact absurd trivial hstays
  | store => simp
  | registers | random | index | delayTimer | soundTimer | clear | draw => rfl

end Sys2Proof

/-! The Machine's invariant (10_state.md R24, R30; 20_memory.md R51; 43_display.md R140): INIT makes it, every effect of an
instruction, TICK and a key write keep it, and so does every schedule. -/

namespace Sys2Proof

namespace Machine

/-! Each part of the invariant is kept by every effect. -/

theorem Effect.keeps_canonical {s t : State} {i : Instr} (e : Effect s i t) (hs : s.Canonical) : t.Canonical := by
  obtain ⟨hmem, hfb⟩ := hs
  cases e with
  | clear => exact ⟨hmem, List.Pairwise.nil, fun _ hc => absurd hc List.not_mem_nil⟩
  | draw x y n => exact ⟨hmem, State.drawSprite_wf hfb _ _ (Nat.min_le_right _ _)⟩
  | store _ inside => exact ⟨State.wf_storeBytes hmem (.inr inside), by simpa using hfb⟩
  | jump | call | ret | registers | random | index | delayTimer | soundTimer => exact ⟨hmem, hfb⟩

/-- A cell after DXYN is as it was or inverted. -/
theorem State.drawn_read (s : State) (x y : Reg) (n : Nibble) (k : Nat) :
    Framebuffer.read (s.drawn x y n).1 k = Framebuffer.read s.fb k ∨
      Framebuffer.read (s.drawn x y n).1 k = Framebuffer.read s.fb k ^^^ 0xFF#8 := by
  by_cases hk : s.Hits x y n k
  · exact .inr (State.drawn_of_hits hk)
  · exact .inl (State.drawn_of_not_hits hk)

theorem Effect.keeps_pixelsLegal {s t : State} {i : Instr} (e : Effect s i t) (hs : s.PixelsLegal) : t.PixelsLegal := by
  cases e with
  | clear => exact fun _ => .inl rfl
  | draw x y n =>
    intro k
    change Framebuffer.read (s.drawn x y n).1 k = 0x00#8 ∨ Framebuffer.read (s.drawn x y n).1 k = 0xFF#8
    rcases s.drawn_read x y n k with hsame | hinv
    · rw [hsame]
      exact hs k
    · rw [hinv]
      rcases hs k with hoff | hon
      · exact .inr (by rw [hoff]; decide)
      · exact .inl (by rw [hon]; decide)
  | store => simpa [State.PixelsLegal] using hs
  | jump | call | ret | registers | random | index | delayTimer | soundTimer => exact hs

/-- An address inside memory, and a skip from it, stay under the bound of pc. -/
theorem add_le_of_fetched {a n : Word} (ha : a.toNat ≤ 4094) (hn : n.toNat ≤ 4) : (a + n).toNat ≤ 0x10FE := by
  rw [BitVec.toNat_add]
  omega

/-- The bound of pc needs that pc was fetched from: a STEP that answers a next state starts at 4094 or below (R60). -/
theorem Effect.keeps_pcBounded {s t : State} {i : Instr} (e : Effect s i t) (hpc : s.pc.toNat ≤ 4094) (hs : s.PcBounded) :
    t.PcBounded := by
  obtain ⟨hbound, hslots⟩ := hs
  have hnext : (s.pc + 2#16).toNat ≤ 0x10FE := add_le_of_fetched hpc (by decide)
  cases e with
  | jump _ reach =>
    refine ⟨?_, hslots⟩
    rcases reach with rfl | rfl | rfl | hfar
    · exact hbound
    · exact hnext
    · exact add_le_of_fetched hpc (by decide)
    · exact hfar
  | call nnn room =>
    refine ⟨?_, fun k hk => ?_⟩
    · rw [State.setPc_pc, addressOf_toNat]
      omega
    · simp only [State.setPc_stack, State.setStack_stack, Vector.getElem_set]
      split
      · exact hpc
      · exact hslots k hk
  | ret hk => exact ⟨add_le_of_fetched (hslots _ _) (by decide), hslots⟩
  | store =>
    refine ⟨?_, fun k hk => ?_⟩
    · simpa using hnext
    · simpa using hslots k hk
  | registers | random | index | delayTimer | soundTimer | clear | draw => exact ⟨hnext, hslots⟩

/-! The operations keep the invariant. -/

/-- A STEP that answers a next state started at 4094 or below and had the effect of some instruction. -/
theorem step_effect {s t : State} (h : step s = .next t) : ∃ i : Instr, s.pc.toNat ≤ 4094 ∧ Effect s i t := by
  obtain ⟨w, i, -, -, hpc, hexec⟩ := step_next h
  exact ⟨i, hpc, exec_effect hexec⟩

theorem State.reset_pcBounded : State.reset.PcBounded := by
  refine ⟨by decide, fun k hk => ?_⟩
  simp

theorem init_inv {font : Font} {image : List Byte} {draws : Nat} {t : State} (h : init font image draws = .next t) :
    t.Inv := by
  obtain ⟨hfits, rfl⟩ := init_next h
  exact ⟨⟨wf_imageMemory font hfits, List.Pairwise.nil, fun _ hc => absurd hc List.not_mem_nil⟩, fun _ => .inl rfl,
    State.reset_pcBounded⟩

theorem step_keeps_inv {s t : State} (hs : s.Inv) (h : step s = .next t) : t.Inv := by
  obtain ⟨i, hpc, e⟩ := step_effect h
  exact ⟨e.keeps_canonical hs.canonical, e.keeps_pixelsLegal hs.pixelsLegal, e.keeps_pcBounded hpc hs.pcBounded⟩

theorem perform_keeps_inv {font : Font} {op : Operation} {s t : State} (hs : s.Inv) (h : perform font op s = .next t) :
    t.Inv := by
  cases op with
  | init image => exact init_inv h
  | step => exact step_keeps_inv hs h
  | tick =>
    injection h with h
    subst h
    exact ⟨hs.canonical, hs.pixelsLegal, hs.pcBounded⟩
  | writeKey k pressed =>
    injection h with h
    subst h
    exact ⟨hs.canonical, hs.pixelsLegal, hs.pcBounded⟩

/-- A schedule that runs to its end runs its first operation and then the rest. -/
theorem performAll_cons_next {font : Font} {op : Operation} {rest : List Operation} {s t : State}
    (h : performAll font (op :: rest) s = .next t) :
    ∃ u : State, perform font op s = .next u ∧ performAll font rest u = .next t := by
  rw [performAll] at h
  split at h
  · exact ⟨_, ‹_›, h⟩
  · cases h
  · cases h

end Machine

open Sys2Proof.Machine

/-- Settles O57: a store lies inside memory and a drawn row on the screen, and no other effect but the clear writes a storage
(20_memory.md section 6, 43_display.md section 3). -/
theorem stepKeepsCanonicalForm : Obligations.StepKeepsCanonicalForm := by
  unfold Obligations.StepKeepsCanonicalForm
  intro s t hs h
  obtain ⟨i, -, e⟩ := step_effect h
  exact e.keeps_canonical hs

/-- Settles O58: a drawn cell is inverted or as it was, and 0x00 and 0xFF are each other's inverse (43_display.md section
3). -/
theorem stepKeepsPixelsLegal : Obligations.StepKeepsPixelsLegal := by
  unfold Obligations.StepKeepsPixelsLegal
  intro s t hs h
  obtain ⟨i, -, e⟩ := step_effect h
  exact e.keeps_pixelsLegal hs

/-- Settles O59: a STEP starts at 4094 or below, so a call pushes such an address, and pc moves by 4 at most from it or from a
slot, or jumps to at most 0xFFF + 0xFF (10_state.md section 3). -/
theorem stepKeepsPcBounded : Obligations.StepKeepsPcBounded := by
  unfold Obligations.StepKeepsPcBounded
  intro s t hs h
  obtain ⟨i, hpc, e⟩ := step_effect h
  exact e.keeps_pcBounded hpc hs

/-- Settles O60, by induction on the schedule: each operation keeps the invariant, INIT whatever was there before. -/
theorem everyScheduleKeepsInvariant : Obligations.EveryScheduleKeepsInvariant := by
  unfold Obligations.EveryScheduleKeepsInvariant
  intro font ops
  induction ops with
  | nil =>
    intro s t hs h
    injection h with h
    exact h ▸ hs
  | cons op rest ih =>
    intro s t hs h
    obtain ⟨u, hop, hrest⟩ := performAll_cons_next h
    exact ih u t (perform_keeps_inv hs hop) hrest

end Sys2Proof

/-! The obligations on INIT and reset (70_reset_and_hazards.md section 1, 10_state.md section 14). -/

namespace Sys2Proof

namespace Machine

theorem font_length (font : Font) : font.toList.length = 80 := Vector.length_toList

/-- A byte of memory after INIT: the image's from 0x200 on, FONT's below 80, 0x00 elsewhere (R191). -/
theorem read_imageMemory (font : Font) (image : List Byte) (a : Nat) :
    Memory.read (imageMemory font image) a =
      if 0x200 ≤ a ∧ a < 0x200 + image.length then image.getD (a - 0x200) 0x00#8 else font.toList.getD a 0x00#8 := by
  change ((State.reset.storeBytes 0 font.toList).storeBytes 0x200 image).readByte a = _
  rw [State.readByte_storeBytes]
  refine if_congr Iff.rfl rfl ?_
  have hfont := font_length font
  by_cases ha : a < 80
  · rw [State.readByte_storeBytes, if_pos (by omega), Nat.sub_zero]
  · have hdefault : defaultFontBytes.length = 80 := rfl
    rw [State.readByte_storeBytes, if_neg (by omega), State.readByte_reset, List.getD_eq_default _ _ (by omega),
      List.getD_eq_default _ _ (by omega)]

/-- Nothing but FONT's own bytes is stored by INIT of the empty image with the default FONT, so no cell is listed. -/
theorem imageMemory_default : imageMemory defaultFont [] = [] := by
  refine Cells.ext_of_wf (wf_imageMemory defaultFont (image := []) (Nat.zero_le _))
    ⟨List.Pairwise.nil, fun _ hc => absurd hc List.not_mem_nil⟩ fun a => ?_
  change Memory.read (imageMemory defaultFont []) a = Memory.read [] a
  rw [read_imageMemory, if_neg (by simp), Memory.read_nil]
  rfl

theorem init_default : init defaultFont [] 0 = .next State.reset := by
  rw [init_of_fits defaultFont (Nat.zero_le _), imageMemory_default]
  rfl

end Machine

open Sys2Proof.Machine

/-- Settles O1: every field but memory is that of reset, and memory holds the image over FONT (70_reset_and_hazards.md section
1). -/
theorem initInstallsFontAndImage : Obligations.InitInstallsFontAndImage := by
  unfold Obligations.InitInstallsFontAndImage
  intro font image draws hfits
  have hread := read_imageMemory font image
  have hfont := font_length font
  refine ⟨_, init_of_fits font hfits draws, rfl, State.reset_reg, rfl, rfl, fun k hk => ?_, rfl, rfl, fun k => ?_,
    fun _ => rfl, fun a ha => ?_, fun a hlow hhigh => ?_, fun k hk => ?_, fun a ha => ?_⟩
  · simp
  · simp [State.key]
  · refine (hread a).trans ?_
    rw [if_neg (by omega)]
    simp [List.getD_eq_getElem?_getD, ha]
  · refine (hread a).trans ?_
    rw [if_neg (by omega), List.getD_eq_default _ _ (by omega)]
  · refine (hread _).trans ?_
    rw [if_pos (by omega), Nat.add_sub_cancel_left, List.getD_eq_getElem _ _ hk]
  · refine (hread a).trans ?_
    rw [if_neg (by omega), List.getD_eq_default _ _ (by omega)]

/-- Settles O2: INIT compares the length with the limit, and a schedule ends at its first fault (70_reset_and_hazards.md section
1). -/
theorem initRefusesLargeImage : Obligations.InitRefusesLargeImage := by
  unfold Obligations.InitRefusesLargeImage
  intro font image draws s rest
  refine ⟨⟨fun hfault => ?_, fun hlarge => init_of_too_large font hlarge draws⟩, fun hlarge => ?_⟩
  · by_contra hfits
    rw [init_of_fits font (by omega)] at hfault
    cases hfault
  · rw [performAll, perform, init_of_too_large font hlarge]

/-- Settles O3: the 80 bytes stored are those an unlisted address reads as (10_state.md section 14). -/
theorem resetIsInitOfEmptyImage : Obligations.ResetIsInitOfEmptyImage := by
  unfold Obligations.ResetIsInitOfEmptyImage
  exact init_default

/-- Settles O4: reset is what an INIT answers, and INIT makes the invariant hold (10_state.md sections 3, 8 and 14). -/
theorem resetMeetsInvariant : Obligations.ResetMeetsInvariant := by
  unfold Obligations.ResetMeetsInvariant
  exact init_inv init_default

end Sys2Proof
